-- ==== Sys2Proof/Word.lean ====
section
/-! DEFINITION. The widths of what moves through the rzcobs codec: a byte of a stream (00_scope.md R6, `BYTE` = 8 bits),
a seven-bit mask or run field (30_encoding.md R57, R58), the word of an input port (10_state.md R17: one marker bit
above eight data bits). -/

namespace Sys2Proof

/-- One item of a byte stream, 0..255 (00_scope.md R6, R8). -/
abbrev Byte := BitVec 8

/-- The seven low bits of a code byte: a zero mask or a run field (30_encoding.md R57, R58). -/
abbrev Bits7 := BitVec 7

/-- The nine bits an input port carries in a transfer: bit 8 is `enc_in_end` or `dec_in_eoi`, bits 7..0 are
`enc_in_data` or `dec_in_data` (10_state.md R17). -/
abbrev PortBits := BitVec 9

end Sys2Proof
end

