-- ==== Sys2Proof/Config.lean ====
section
/-! DEFINITION. The constants of the wire format (00_scope.md R6), none of them configurable, and the one open parameter,
`LATENCY` (92_eei_decisions.md D17), which no rule and no definition of this model reads. -/

namespace Sys2Proof.Config

/-- `TERM`: the terminator, the only zero byte of a frame (R6). -/
abbrev term : Byte := 0x00#8

/-- `WINDOW`: positions described by one zero mask (R6). -/
abbrev window : Nat := 7

/-- `RUN_MIN`: the shortest literal run a run-length code describes (R6). -/
abbrev runMin : Nat := 7

/-- `RUN_MAX`: the longest literal run with an implied zero (R6). -/
abbrev runMax : Nat := 133

/-- `RUN_LONG`: the literal run of code 0xFF, without an implied zero (R6). -/
abbrev runLong : Nat := 134

/-- `PAD_MAX`: the most zero bytes a decoded output has beyond its message (R6). -/
abbrev padMax : Nat := 6

/-- `LATENCY`: the cycles between accepting an input event and offering its outputs. The spec leaves it open and no rule
reads it (70_reset_and_hazards.md R161, D17, U12); log 10. -/
opaque latency : Nat

end Sys2Proof.Config
end

