-- ==== Sys2Proof/Syntax.lean ====
section
/-! DEFINITION. The instructions: one constructor for each row of spec/opcode_table.json, and the words that carry them,
sorted by the table's column "position". -/

namespace Sys2Proof

/-- The two independent blocks (00_scope.md R1). Each has its own `rst` (70_reset_and_hazards.md R145). -/
inductive Block where
  | encoder
  | decoder
  deriving DecidableEq, Repr

/-- Where the decoder stands when a frame byte arrives (30_encoding.md R54): it will read the byte as a code byte or
terminator, or as a literal byte. -/
inductive Position where
  | code
  | literal
  deriving DecidableEq, Repr

/-- The instructions of the codec. The first six are the ways a frame byte is read (30_encoding.md R55, R54, R65); the
others are the input events of the two blocks (00_scope.md R12). -/
inductive Instr where
  /-- `END`: 0x00 in a code position (R92). -/
  | frameEnd
  /-- `MASK m`: 0x01..0x7F in a code position (R93). -/
  | mask (m : Bits7)
  /-- `RUN`: 0x80..0xFE in a code position, field `n`, run length n + 7 (R95). -/
  | run (n : Bits7)
  /-- `RUN134`: 0xFF in a code position (R96). -/
  | run134
  /-- `LITERAL`: a non-zero byte in a literal position (R99, R100). -/
  | literal (v : Byte)
  /-- `ZERO_IN_LITERAL`: 0x00 in a literal position (R98). -/
  | zeroInLiteral
  /-- `ENC.PUT(b)`: the encoder takes one message byte (R72). -/
  | encPut (b : Byte)
  /-- `ENC.END`: end of message (R80). -/
  | encEnd
  /-- `DEC.PUT(c)`: the decoder takes one frame byte (R91). -/
  | decPut (c : Byte)
  /-- `DEC.EOI`: the frame stream has ended (R103). -/
  | decEoi
  /-- `RESET` of one block (R145). -/
  | reset (block : Block)
  deriving DecidableEq, Repr

/-- A word of the opcode table together with what carries it (the table's "position"). -/
inductive TableWord where
  /-- A frame byte in a code position. -/
  | code (b : Byte)
  /-- A frame byte in a literal position. -/
  | literal (b : Byte)
  /-- A transfer on the encoder's input port, `enc_in_end` and `enc_in_data`. -/
  | encIn (w : PortBits)
  /-- A transfer on the decoder's input port, `dec_in_eoi` and `dec_in_data`. -/
  | decIn (w : PortBits)
  /-- The level of a block's `rst` at a rising edge of its `clk`. -/
  | rst (block : Block) (level : BitVec 1)
  deriving DecidableEq, Repr

end Sys2Proof
end

