-- ==== Sys2Proof/WellFormed.lean ====
section
/-! DEFINITION. Which instructions are well formed: the constraints of spec/opcode_table.json on the operands. -/

namespace Sys2Proof

/-- The operand constraints of the opcode table: `MASK` has m ≠ 0 (m = 0 is `END`, R57), `RUN` has n ≠ 127 (n = 127 is
`RUN134`, R58), `LITERAL` has v ≠ 0 (v = 0 is `ZERO_IN_LITERAL`, R54, R65). Every other instruction is well formed. -/
def Instr.wellFormed : Instr → Bool
  | .frameEnd => true
  | .mask m => m != 0#7
  | .run n => n != 127#7
  | .run134 => true
  | .literal v => v != 0#8
  | .zeroInLiteral => true
  | .encPut _ => true
  | .encEnd => true
  | .decPut _ => true
  | .decEoi => true
  | .reset _ => true

/-- Well-formedness as a proposition. -/
abbrev Instr.WellFormed (i : Instr) : Prop := i.wellFormed = true

end Sys2Proof
end

