-- ==== Sys2Proof/Decode.lean ====
section
/-! DEFINITION. From words to instructions and back. A word's meaning depends on what carries it: a frame byte is told apart
by the decoder's position only (20_memory.md R51), a port word by its port. `decode` is total and rejects by name; `encode`
is written from the same tables (30_encoding.md R55 to R63, 10_state.md R17). -/

namespace Sys2Proof

/-- A MASK code byte: bit 7 is 0, bits 6..0 are the mask (R57). -/
def maskByte (m : Bits7) : Byte := m.setWidth 8

/-- A RUN code byte: bit 7 is 1, bits 6..0 are the field (R58). -/
def runByte (n : Bits7) : Byte := n.setWidth 8 ||| 0x80#8

/-- The word of a `PUT` on an input port: the marker bit is 0 (10_state.md R17). -/
def putBits (b : Byte) : PortBits := b.setWidth 9

/-- The word of `END` on enc_in or `EOI` on dec_in: the marker bit is 1; the data bits are ignored (R17) and sent as
zeros here (log 19). -/
def markerBits : PortBits := 0x100#9

/-- The marker bit of a port word: `enc_in_end` or `dec_in_eoi` (R17). -/
def markerOf (w : PortBits) : Bool := w.getLsbD 8

/-- The data byte of a port word (R17). -/
def dataOf (w : PortBits) : Byte := w.setWidth 8

/-- A byte in a code position: test for 0x00, then for 0xFF, then bit 7 (30_encoding.md R63). -/
def decodeCode (b : Byte) : Instr :=
  if b = 0x00#8 then .frameEnd
  else if b = 0xFF#8 then .run134
  else if b.getLsbD 7 then .run (b.setWidth 7)
  else .mask (b.setWidth 7)

/-- A byte in a literal position: non-zero is a literal standing for itself, 0x00 is the error of R65 (R63). -/
def decodeLiteral (b : Byte) : Instr :=
  if b = 0x00#8 then .zeroInLiteral else .literal b

/-- A frame byte, read where the decoder stands (30_encoding.md R54, 20_memory.md R51). -/
def decodeFrameByte : Position → Byte → Instr
  | .code, b => decodeCode b
  | .literal, b => decodeLiteral b

/-- Why a word is no instruction. -/
inductive Reject where
  /-- `rst` = 0: the signal is not asserted, so there is no RESET event (70_reset_and_hazards.md R145). -/
  | resetNotAsserted
  deriving DecidableEq, Repr

/-- The decoder of the instruction set. Every frame byte and every port word is an instruction (30_encoding.md R63, R64);
only `rst` = 0 is none. -/
def decode : TableWord → Except Reject Instr
  | .code b => .ok (decodeCode b)
  | .literal b => .ok (decodeLiteral b)
  | .encIn w => .ok (if markerOf w then .encEnd else .encPut (dataOf w))
  | .decIn w => .ok (if markerOf w then .decEoi else .decPut (dataOf w))
  | .rst blk level => if level = 1#1 then .ok (.reset blk) else .error .resetNotAsserted

/-- The word of an instruction, with what carries it. -/
def encode : Instr → TableWord
  | .frameEnd => .code 0x00#8
  | .mask m => .code (maskByte m)
  | .run n => .code (runByte n)
  | .run134 => .code 0xFF#8
  | .literal v => .literal v
  | .zeroInLiteral => .literal 0x00#8
  | .encPut b => .encIn (putBits b)
  | .encEnd => .encIn markerBits
  | .decPut c => .decIn (putBits c)
  | .decEoi => .decIn markerBits
  | .reset blk => .rst blk 1#1

/-- A row of spec/opcode_table.json: the bits `mask` selects are those of `value` (the table's "match"). -/
structure Row where
  mnemonic : String
  mask : Nat
  value : Nat
  deriving DecidableEq, Repr

/-- The opcode table's row of each instruction. -/
def Instr.row : Instr → Row
  | .frameEnd => ⟨"END", 0xFF, 0x00⟩
  | .mask _ => ⟨"MASK", 0x80, 0x00⟩
  | .run _ => ⟨"RUN", 0x80, 0x80⟩
  | .run134 => ⟨"RUN134", 0xFF, 0xFF⟩
  | .literal _ => ⟨"LITERAL", 0x00, 0x00⟩
  | .zeroInLiteral => ⟨"ZERO_IN_LITERAL", 0xFF, 0x00⟩
  | .encPut _ => ⟨"ENC.PUT", 0x100, 0x000⟩
  | .encEnd => ⟨"ENC.END", 0x100, 0x100⟩
  | .decPut _ => ⟨"DEC.PUT", 0x100, 0x000⟩
  | .decEoi => ⟨"DEC.EOI", 0x100, 0x100⟩
  | .reset _ => ⟨"RESET", 0x1, 0x1⟩

/-- A word's bits as the opcode table numbers them. -/
def TableWord.bits : TableWord → Nat
  | .code b => b.toNat
  | .literal b => b.toNat
  | .encIn w => w.toNat
  | .decIn w => w.toNat
  | .rst _ level => level.toNat

/-- Which word of the table `nbits` bits of value `w` are, when nothing else says what carries them (log 8): one bit is the
encoder's `rst`; one byte is a frame byte where the decoder stands after reset, in a code position; nine bits (two whole
bytes) are a transfer on enc_in. Other widths, and bits set above the word, are none. -/
def tableWordOf (nbits w : Nat) : Option TableWord :=
  if nbits = 1 then (if w < 2 then some (.rst .encoder (BitVec.ofNat 1 w)) else none)
  else if nbits = 8 then (if w < 256 then some (.code (BitVec.ofNat 8 w)) else none)
  else if nbits = 9 ∨ nbits = 16 then (if w < 512 then some (.encIn (BitVec.ofNat 9 w)) else none)
  else none

/-- The instruction the decoder reads from `nbits` bits of value `w`. -/
def decodeTableWord (nbits w : Nat) : Option Instr :=
  match tableWordOf nbits w with
  | none => none
  | some t =>
    match decode t with
    | .ok i => some i
    | .error _ => none

end Sys2Proof
end

