-- ==== Sys2Proof/Machine/State.lean ====
section
/-! DEFINITION. The state of the codec (10_state.md R18 to R28, in the algebraic views of R22 and R28), its pending output
events (20_memory.md R48), and, as plain data, what the surroundings do (R15, R141). State after reset: R33, R34, R147. -/

namespace Sys2Proof.Machine

/-- Reasons a step stops with a fault: none. The one error condition, `MalformedFrame`, is reported in-band and the machine
goes on (60_exceptions.md R130, R132); no state and no input makes a block stuck (70_reset_and_hazards.md R160). -/
inductive Fault where
  deriving DecidableEq, Repr

/-- Reasons a step is refused. -/
inductive Refusal where
  /-- Raised by an arm of `exec` whose instruction has no meaning yet; no arm does. Safe. -/
  | notModelled (mnemonic : String)
  deriving DecidableEq, Repr

/-- The two causes of the one error kind, `MalformedFrame` (60_exceptions.md R125 to R127). -/
inductive Cause where
  /-- A zero byte in a literal position (R126). -/
  | truncated
  /-- The input is over and a frame is in progress (R127). -/
  | noTerminator
  deriving DecidableEq, Repr

/-- The `status` of `END(status)` (R128). -/
inductive Status where
  | ok
  | malformedFrame (cause : Cause)
  deriving DecidableEq, Repr

/-- An output event of the decoder (00_scope.md R12). -/
inductive DecEvent where
  /-- `DATA(b)`. -/
  | data (b : Byte)
  /-- `END(status)`. -/
  | frameEnd (status : Status)
  deriving DecidableEq, Repr

/-- The encoder's registers, the chunk under construction (10_state.md R18, R22). -/
structure EncState where
  /-- `enc.run`: message bytes consumed into the chunk (R19). -/
  run : Nat
  /-- `enc.zeros`: bit i is 1 when byte i of the window was 0x00 (R20). -/
  zeros : Bits7
  /-- The valid entries of `enc.buf`, `buf[0]` first (R21, R22). -/
  lits : List Byte
  deriving DecidableEq, Repr

/-- `dec.mode` with the registers that exist in each mode (R24 to R26, R28). -/
inductive Ctl where
  /-- The next frame byte is in a code position. -/
  | code
  /-- Inside a RUN or RUN134 chunk: `cnt` literals to come, `az` = an implied zero follows the last. -/
  | lit (cnt : Nat) (az : Bool)
  /-- Inside a MASK chunk: the literal for position `idx` of the mask `m` is awaited. -/
  | mask (m : Bits7) (idx : Nat)
  deriving DecidableEq, Repr

/-- The decoder's registers (R23, R28). -/
structure DecState where
  ctl : Ctl
  /-- `dec.inframe`: a byte of a frame not yet ended has been consumed (R27). -/
  inframe : Bool
  deriving DecidableEq, Repr

/-- One move of the surroundings (R15, R141). -/
inductive Move where
  /-- The encoder's upstream makes a transfer on enc_in. -/
  | encIn (w : PortBits)
  /-- The decoder's upstream makes a transfer on dec_in. -/
  | decIn (w : PortBits)
  /-- The level of a block's `rst` at a rising edge of its `clk`. -/
  | rst (block : Block) (level : BitVec 1)
  /-- The encoder's downstream accepts the oldest pending output event. -/
  | encOut
  /-- The decoder's downstream accepts the oldest pending output event. -/
  | decOut
  deriving DecidableEq, Repr

/-- The machine: two blocks with disjoint state (R15, R49), and the surroundings' moves and records. -/
structure State where
  /-- The encoder's registers. -/
  enc : EncState
  /-- `OUT(b)` events emitted and not yet transferred, oldest first (R48, log 3). -/
  encOut : List Byte
  /-- The decoder's registers. -/
  dec : DecState
  /-- Decoder output events emitted and not yet transferred, oldest first (R48, log 3). -/
  decOut : List DecEvent
  /-- Bytes the encoder's downstream has accepted, oldest first (model's own, log 5). -/
  encSent : List Byte
  /-- Events the decoder's downstream has accepted, oldest first (model's own, log 5). -/
  decSent : List DecEvent
  /-- What the surroundings will do, next first (model's own, log 4). -/
  moves : List Move
  deriving DecidableEq, Repr

/-- The encoder after RESET (R33). -/
def EncState.reset : EncState := ⟨0, 0#7, []⟩

/-- The decoder after RESET: a frame boundary (R34). -/
def DecState.reset : DecState := ⟨.code, false⟩

/-- The machine right after reset (R147): both blocks in their reset states, nothing pending; nothing accepted yet and no
move planned (log 4, 5). -/
def State.reset : State where
  enc := EncState.reset
  encOut := []
  dec := DecState.reset
  decOut := []
  encSent := []
  decSent := []
  moves := []

end Sys2Proof.Machine
end

