-- ==== Sys2Proof/Machine/Operands.lean ====
section
/-! DEFINITION. Operand assembly: run lengths and their code bytes, masks and their zeros, literals and pad bits
(30_encoding.md R61, R62), and where the decoder stands (R54). -/

namespace Sys2Proof.Machine

/-- The run length of a RUN field, L = n + 7 (R61). -/
def runLength (n : Bits7) : Nat := n.toNat + Config.runMin

/-- The code byte of a run of L literals, `(L - 7) | 0x80`, 7 ≤ L ≤ 133 (R61). -/
def runCode (len : Nat) : Byte := BitVec.ofNat 8 (len - Config.runMin) ||| 0x80#8

/-- The number of 1 bits of a mask. -/
def popcount (m : Bits7) : Nat := (List.range Config.window).countP (fun i => m.getLsbD i)

/-- How many literal bytes a code byte declares after it (R57 to R59, R66): a MASK 7 - popcount(m), a RUN n + 7, RUN134
134. The other instructions declare none. -/
def literalCount : Instr → Nat
  | .frameEnd => 0
  | .mask m => Config.window - popcount m
  | .run n => runLength n
  | .run134 => Config.runLong
  | .literal _ => 0
  | .zeroInLiteral => 0
  | .encPut _ => 0
  | .encEnd => 0
  | .decPut _ => 0
  | .decEoi => 0
  | .reset _ => 0

/-- The mask bits r..6 set, the pad positions of a final window of r bytes: `(0x7F << r) & 0x7F` (40_encoder.md R82). -/
def padBits (r : Nat) : Bits7 := 0x7F#7 <<< r

/-- The mask of a window: bit i is 1 exactly when byte i is 0x00 (R62), byte 0 being the first in stream order (R41). -/
def maskOf : List Byte → Bits7
  | [] => 0#7
  | b :: bs => (maskOf bs <<< 1) ||| (if b = 0x00#8 then 1#7 else 0#7)

/-- `nz(s)`: the non-zero bytes of a sequence in order (00_scope.md R10). -/
def nonZeros (s : List Byte) : List Byte := s.filter (· ≠ 0x00#8)

/-- `zeros(k)`: k bytes 0x00 (R10). -/
def zeros (k : Nat) : List Byte := List.replicate k 0x00#8

/-- Where the next frame byte stands: a code position in mode `CODE`, a literal position in modes `LIT` and `MASK`
(10_state.md R24). -/
def Ctl.position : Ctl → Position
  | .code => .code
  | .lit _ _ => .literal
  | .mask _ _ => .literal

end Sys2Proof.Machine
end

