-- ==== Sys2Proof/Machine/Flags.lean ====
section
/-! DEFINITION. The codec has no flags (10_state.md R30); its one status is a field of an output event. Here are the status
codes (60_exceptions.md R128), the payload of the decoder's output port (10_state.md R17), and the register view of the two
blocks with the widths of R19 to R27. -/

namespace Sys2Proof.Machine

/-- The two-bit status code of `END(status)` (R128). -/
def Status.code : Status → BitVec 2
  | .ok => 0#2
  | .malformedFrame .truncated => 1#2
  | .malformedFrame .noTerminator => 2#2

/-- The status a code stands for; 3 is never produced and stands for none (R128, U16). -/
def Status.ofCode (c : BitVec 2) : Option Status :=
  if c = 0#2 then some .ok
  else if c = 1#2 then some (.malformedFrame .truncated)
  else if c = 2#2 then some (.malformedFrame .noTerminator)
  else none

/-- What the decoder's output port carries in a transfer (R17): `dec_out_end`, `dec_out_status`, `dec_out_data`. -/
structure DecPort where
  isEnd : Bool
  status : BitVec 2
  data : Byte
  deriving DecidableEq, Repr

/-- The port payload of an output event: data is 0x00 in an `END`, status is 0 in a `DATA` (R17). -/
def DecEvent.port : DecEvent → DecPort
  | .data b => ⟨false, 0#2, b⟩
  | .frameEnd st => ⟨true, st.code, 0x00#8⟩

/-- `dec.mode` as its two-bit register: `CODE` 0, `LIT` 1, `MASK` 2 (R24). -/
def Ctl.mode : Ctl → BitVec 2
  | .code => 0#2
  | .lit _ _ => 1#2
  | .mask _ _ => 2#2

/-- `dec.cnt` as its eight-bit register; it holds a value in mode `LIT` only (R25, U9). -/
def Ctl.cnt : Ctl → Option (BitVec 8)
  | .code => none
  | .lit cnt _ => some (BitVec.ofNat 8 cnt)
  | .mask _ _ => none

/-- `dec.az`; it holds a value in mode `LIT` only (R25, U9). -/
def Ctl.az : Ctl → Option Bool
  | .code => none
  | .lit _ az => some az
  | .mask _ _ => none

/-- `dec.mask`; it holds a value in mode `MASK` only (R26, U9). -/
def Ctl.maskReg : Ctl → Option Bits7
  | .code => none
  | .lit _ _ => none
  | .mask m _ => some m

/-- `dec.idx` as its three-bit register; it holds a value in mode `MASK` only (R26, U9). -/
def Ctl.idx : Ctl → Option (BitVec 3)
  | .code => none
  | .lit _ _ => none
  | .mask _ idx => some (BitVec.ofNat 3 idx)

/-- `enc.run` as its eight-bit register (R19). -/
def EncState.runReg (e : EncState) : BitVec 8 := BitVec.ofNat 8 e.run

/-- `buf[i]`: it holds a value for a valid entry only (R21, U10). -/
def EncState.buf (e : EncState) (i : Nat) : Option Byte := e.lits[i]?

/-- `END(status)` with a status other than `OK` (R30). -/
def DecEvent.isMalformed : DecEvent → Bool
  | .data _ => false
  | .frameEnd .ok => false
  | .frameEnd (.malformedFrame _) => true

end Sys2Proof.Machine
end

