-- ==== Sys2Proof/Machine/Ops.lean ====
section
/-! DEFINITION. The shared operations: emitting, the encoder's `flush` (40_encoder.md R79), the decoder's `drain`
(41_decoder.md R94), raising `MalformedFrame` (60_exceptions.md R130; there is no return from it, R132), and the transfer of
an output event (20_memory.md R48). -/

namespace Sys2Proof.Machine

/-- `emit(OUT(b))` for each byte, in order (00_scope.md R11, R47). -/
def State.emitBytes (s : State) (bs : List Byte) : State := { s with encOut := s.encOut ++ bs }

/-- `emit` of decoder events, in order (R11, R47). -/
def State.emitEvents (s : State) (es : List DecEvent) : State := { s with decOut := s.decOut ++ es }

/-- Writes the encoder's registers. -/
def State.setEnc (s : State) (e : EncState) : State := { s with enc := e }

/-- Writes the decoder's registers. -/
def State.setDec (s : State) (d : DecState) : State := { s with dec := d }

/-- Writes `dec.mode` and the registers of that mode. -/
def State.setCtl (s : State) (c : Ctl) : State := s.setDec { s.dec with ctl := c }

/-- `flush(code)` (R79): the code byte, then the literals in the order consumed; the registers are cleared. -/
def flush (code : Byte) (s : State) : State := (s.emitBytes (code :: s.enc.lits)).setEnc EncState.reset

/-- A zero byte joins the window: bit `enc.run` of the mask is set (R73). -/
def pushZero (s : State) : State :=
  s.setEnc { s.enc with zeros := s.enc.zeros ||| (1#7 <<< s.enc.run), run := s.enc.run + 1 }

/-- A non-zero byte joins the chunk under construction: `lits.push(b)`, `enc.run` + 1 (R74, R77, R78). -/
def pushLiteral (b : Byte) (s : State) : State :=
  s.setEnc { s.enc with lits := s.enc.lits ++ [b], run := s.enc.run + 1 }

/-- Window completion (R75). -/
def completeWindow (s : State) : State :=
  if s.enc.run = Config.window ∧ s.enc.zeros ≠ 0#7 then flush (maskByte s.enc.zeros) s else s

/-- Run completion: a run of 134 is emitted at once (R78); a shorter one goes on growing (R77). -/
def completeRun (s : State) : State :=
  if s.enc.run = Config.runLong then flush 0xFF#8 s else s

/-- The loop of `drain` (R94): from position `idx`, the first position, at most `fuel` further, that is 7 or whose mask
bit is 0. -/
def skipZeros (m : Bits7) : Nat → Nat → Nat
  | 0, idx => idx
  | fuel + 1, idx => if idx < Config.window ∧ m.getLsbD idx = true then skipZeros m fuel (idx + 1) else idx

/-- The mode after `drain` stopped at `idx` (R94). -/
def ctlAt (m : Bits7) (idx : Nat) : Ctl := if idx = Config.window then .code else .mask m idx

/-- `drain()` with `dec.mask` = m, `dec.idx` = idx (R94): a `DATA(00)` for each position passed, then mode `CODE` when the
window is complete, `MASK` when a literal is awaited. -/
def drain (m : Bits7) (idx : Nat) (s : State) : State :=
  (s.emitEvents ((zeros (skipZeros m Config.window idx - idx)).map .data)).setCtl (ctlAt m (skipZeros m Config.window idx))

/-- `raise MalformedFrame(cause)` (R130): `END(cause)`, then the decoder is at a frame boundary. The machine goes on from
there (D11, log 13). -/
def raiseMalformed (cause : Cause) (s : State) : State :=
  (s.emitEvents [.frameEnd (.malformedFrame cause)]).setDec DecState.reset

/-- The encoder's downstream accepts the oldest pending event; with nothing pending there is no transfer (R48, R52). -/
def acceptEnc (s : State) : State :=
  match s.encOut with
  | [] => s
  | b :: rest => { s with encOut := rest, encSent := s.encSent ++ [b] }

/-- The decoder's downstream accepts the oldest pending event; with nothing pending there is no transfer (R48, R52). -/
def acceptDec (s : State) : State :=
  match s.decOut with
  | [] => s
  | e :: rest => { s with decOut := rest, decSent := s.decSent ++ [e] }

end Sys2Proof.Machine
end

