-- ==== Sys2Proof/Machine/Decoder.lean ====
section
/-! DEFINITION. The decoder's operations: the reading of a frame byte in a code position (41_decoder.md R92, R93, R95, R96)
and in a literal position (R98 to R100), `DEC.PUT` (R91) and `DEC.EOI` (R103).

What a byte is depends on the decoder's mode alone (20_memory.md R51). So the six frame-byte instructions have the effect
their rule gives when the decoder stands in their position; in the other position their byte is what arrives, and it is read
as R91 says (log 7). -/

namespace Sys2Proof.Machine

/-- `END` in a code position: `END(OK)`, frame boundary (R92). -/
def endFrame (s : State) : State := (s.emitEvents [.frameEnd .ok]).setDec DecState.reset

/-- `MASK m` in a code position (R93). -/
def startMask (m : Bits7) (s : State) : State := drain m 0 (s.setDec { s.dec with inframe := true })

/-- A RUN or RUN134 code byte: `cnt` literals are awaited, with or without an implied zero (R95, R96). -/
def startLit (cnt : Nat) (az : Bool) (s : State) : State := s.setDec ⟨.lit cnt az, true⟩

/-- A literal byte in mode `LIT` (R99). -/
def takeRunLiteral (c : Byte) (cnt : Nat) (az : Bool) (s : State) : State :=
  if cnt - 1 = 0 then
    (s.emitEvents (.data c :: if az then [.data 0x00#8] else [])).setCtl .code
  else (s.emitEvents [.data c]).setCtl (.lit (cnt - 1) az)

/-- A literal byte in mode `MASK` (R100). -/
def takeMaskLiteral (c : Byte) (m : Bits7) (idx : Nat) (s : State) : State :=
  drain m (idx + 1) (s.emitEvents [.data c])

/-- A byte in a code position (R91, rows with mode `CODE`; the tests in the order of 30_encoding.md R63). -/
def readCode (c : Byte) (s : State) : State :=
  if c = 0x00#8 then endFrame s
  else if c = 0xFF#8 then startLit Config.runLong false s
  else if c.getLsbD 7 then startLit (runLength (c.setWidth 7)) true s
  else startMask (c.setWidth 7) s

/-- A byte in a literal position of a run (R91, mode `LIT`). -/
def readRunLiteral (c : Byte) (cnt : Nat) (az : Bool) (s : State) : State :=
  if c = 0x00#8 then raiseMalformed .truncated s else takeRunLiteral c cnt az s

/-- A byte in a literal position of a window (R91, mode `MASK`). -/
def readMaskLiteral (c : Byte) (m : Bits7) (idx : Nat) (s : State) : State :=
  if c = 0x00#8 then raiseMalformed .truncated s else takeMaskLiteral c m idx s

/-- A frame byte read as the decoder's mode says (R91). -/
def readByte (c : Byte) (s : State) : State :=
  match s.dec.ctl with
  | .code => readCode c s
  | .lit cnt az => readRunLiteral c cnt az s
  | .mask m idx => readMaskLiteral c m idx s

/-- An instruction of a code position: its effect there; in a literal position its byte is read (log 7). -/
def inCodePosition (c : Byte) (effect : State → State) (s : State) : State :=
  match s.dec.ctl with
  | .code => effect s
  | .lit _ _ => readByte c s
  | .mask _ _ => readByte c s

/-- `END` (R92). -/
def execFrameEnd (s : State) : Host.Outcome State Fault Refusal :=
  .next (inCodePosition 0x00#8 endFrame s)

/-- `MASK m` (R93). -/
def execMask (m : Bits7) (s : State) : Host.Outcome State Fault Refusal :=
  .next (inCodePosition (maskByte m) (startMask m) s)

/-- `RUN` with field n (R95). -/
def execRun (n : Bits7) (s : State) : Host.Outcome State Fault Refusal :=
  .next (inCodePosition (runByte n) (startLit (runLength n) true) s)

/-- `RUN134` (R96). -/
def execRun134 (s : State) : Host.Outcome State Fault Refusal :=
  .next (inCodePosition 0xFF#8 (startLit Config.runLong false) s)

/-- `LITERAL` (R99 in mode `LIT`, R100 in mode `MASK`). -/
def execLiteral (v : Byte) (s : State) : Host.Outcome State Fault Refusal :=
  .next (match s.dec.ctl with
    | .code => readByte v s
    | .lit cnt az => takeRunLiteral v cnt az s
    | .mask m idx => takeMaskLiteral v m idx s)

/-- `ZERO_IN_LITERAL` (R98). -/
def execZeroInLiteral (s : State) : Host.Outcome State Fault Refusal :=
  .next (match s.dec.ctl with
    | .code => readByte 0x00#8 s
    | .lit _ _ => raiseMalformed .truncated s
    | .mask _ _ => raiseMalformed .truncated s)

/-- `DEC.PUT(c)` (R91). -/
def execDecPut (c : Byte) (s : State) : Host.Outcome State Fault Refusal := .next (readByte c s)

/-- `DEC.EOI` (R103): an error while a frame is in progress, nothing at a frame boundary. -/
def execDecEoi (s : State) : Host.Outcome State Fault Refusal :=
  .next (if s.dec.inframe then raiseMalformed .noTerminator s else s)

end Sys2Proof.Machine
end

