-- ==== Sys2Proof/Machine/Encoder.lean ====
section
/-! DEFINITION. The encoder's operations `ENC.PUT` (40_encoder.md R72 to R79) and `ENC.END` (R80 to R83). -/

namespace Sys2Proof.Machine

/-- `ENC.PUT(b)` in the window phase, `enc.run` ≤ 6 (R73, R74, R75). -/
def putWindow (b : Byte) (s : State) : State :=
  completeWindow (if b = 0x00#8 then pushZero s else pushLiteral b s)

/-- `ENC.PUT(b)` in the run phase, `enc.run` ≥ 7 (R76, R77, R78): a zero ends the run and is absorbed. -/
def putRun (b : Byte) (s : State) : State :=
  if b = 0x00#8 then flush (runCode s.enc.run) s else completeRun (pushLiteral b s)

/-- `ENC.PUT(b)` (R72). -/
def execEncPut (b : Byte) (s : State) : Host.Outcome State Fault Refusal :=
  .next (if s.enc.run < Config.window then putWindow b s else putRun b s)

/-- The chunk under construction is completed and emitted, if there is one (R80): nothing pending (R81), a final partial
window with its pad bits set (R82), a run the message ends inside (R83). -/
def closeChunk (s : State) : State :=
  if s.enc.run = 0 then s
  else if s.enc.run < Config.window then flush (maskByte (s.enc.zeros ||| padBits s.enc.run)) s
  else flush (runCode s.enc.run) s

/-- `ENC.END` (R80): close the chunk, then the terminator. -/
def execEncEnd (s : State) : Host.Outcome State Fault Refusal :=
  .next ((closeChunk s).emitBytes [Config.term])

end Sys2Proof.Machine
end

