-- ==== Sys2Proof/Machine/ResetOp.lean ====
section
/-! DEFINITION. `RESET` of one block (70_reset_and_hazards.md R145, R146). -/

namespace Sys2Proof.Machine

/-- The encoder's RESET: its reset state; what it had emitted and not yet transferred is lost (R146). -/
def resetEncoder (s : State) : State := { s with enc := EncState.reset, encOut := [] }

/-- The decoder's RESET: its reset state; what it had emitted and not yet transferred is lost (R146). -/
def resetDecoder (s : State) : State := { s with dec := DecState.reset, decOut := [] }

/-- `RESET` of a block (R145): nothing is emitted, the other block is untouched. -/
def execReset (blk : Block) (s : State) : Host.Outcome State Fault Refusal :=
  .next (match blk with
    | .encoder => resetEncoder s
    | .decoder => resetDecoder s)

end Sys2Proof.Machine
end

