-- ==== Sys2Proof/Machine/Dispatch.lean ====
section
/-! DEFINITION. One arm per instruction: each a direct call of its meaning. -/

namespace Sys2Proof.Machine

def exec (i : Instr) (s : State) : Host.Outcome State Fault Refusal :=
  match i with
  | .frameEnd => Sys2Proof.Machine.execFrameEnd s
  | .mask m => Sys2Proof.Machine.execMask m s
  | .run n => Sys2Proof.Machine.execRun n s
  | .run134 => Sys2Proof.Machine.execRun134 s
  | .literal v => Sys2Proof.Machine.execLiteral v s
  | .zeroInLiteral => Sys2Proof.Machine.execZeroInLiteral s
  | .encPut b => Sys2Proof.Machine.execEncPut b s
  | .encEnd => Sys2Proof.Machine.execEncEnd s
  | .decPut c => Sys2Proof.Machine.execDecPut c s
  | .decEoi => Sys2Proof.Machine.execDecEoi s
  | .reset blk => Sys2Proof.Machine.execReset blk s

end Sys2Proof.Machine
end

