-- ==== Sys2Proof/Machine/Moves.lean ====
section
/-! DEFINITION. Fetching: what a move of the surroundings (10_state.md R15, 60_exceptions.md R141) puts on a port, and what it
does. The word is decoded and its instruction executed; an output transfer concerns no instruction. -/

namespace Sys2Proof.Machine

/-- The instruction word a move puts on an input port or a reset line. An output transfer carries none. -/
def Move.word : Move → Option TableWord
  | .encIn w => some (.encIn w)
  | .decIn w => some (.decIn w)
  | .rst blk level => some (.rst blk level)
  | .encOut => none
  | .decOut => none

/-- A word is decoded and executed. A word that is no event (`rst` = 0) leaves the state as it is: a cycle without a
transfer carries no information (20_memory.md R52; log 9). -/
def runWord (w : TableWord) (s : State) : Host.Outcome State Fault Refusal :=
  match decode w with
  | .ok i => exec i s
  | .error .resetNotAsserted => .next s

/-- One move of the surroundings. -/
def runMove (mv : Move) (s : State) : Host.Outcome State Fault Refusal :=
  match mv with
  | .encIn w => runWord (.encIn w) s
  | .decIn w => runWord (.decIn w) s
  | .rst blk level => runWord (.rst blk level) s
  | .encOut => .next (acceptEnc s)
  | .decOut => .next (acceptDec s)

/-- The move that brings a word to its block: a frame byte comes on dec_in (R37). -/
def moveFor : TableWord → Move
  | .code b => .decIn (putBits b)
  | .literal b => .decIn (putBits b)
  | .encIn w => .encIn w
  | .decIn w => .decIn w
  | .rst blk level => .rst blk level

/-- The decoder made ready to read a word in the position the word is for: a byte for a code position needs mode `CODE`;
`tableWordOf` makes no word for a literal position (log 8). -/
def readyFor (t : TableWord) (s : State) : State :=
  match t with
  | .code _ => s.setCtl .code
  | .literal _ => s
  | .encIn _ => s
  | .decIn _ => s
  | .rst _ _ => s

end Sys2Proof.Machine
end

