-- ==== Sys2Proof/Machine/Step.lean ====
section
/-! DEFINITION. One step: the surroundings' next move is made, and the block it concerns processes it to completion before
the next (20_memory.md R45). -/

namespace Sys2Proof.Machine

/-- The next move is taken from the list and made. With no move left nothing is offered or accepted, and the blocks wait
(60_exceptions.md R140; log 18). -/
def step (s : State) : Host.Outcome State Fault Refusal :=
  match s.moves with
  | [] => .next s
  | mv :: rest => runMove mv { s with moves := rest }

/-- `s` with the instruction of `nbits` bits `w` made the surroundings' next move, and the decoder in a code position when
the word is a code-position byte (log 4, 8). A width the table does not use changes nothing. -/
def State.withFetchWord (s : State) (nbits w : Nat) : State :=
  match tableWordOf nbits w with
  | none => s
  | some t => readyFor t { s with moves := moveFor t :: s.moves }

end Sys2Proof.Machine
end

