-- ==== Sys2Proof/Machine/Format.lean ====
section
/-! DEFINITION. The wire format as data: chunks and frames (30_encoding.md R53, R60), what they stand for (R66, R70), and their
lengths. A `Chunk` is a line of the spec's listing notation (R67): `MASK m ; literals`, `RUN L ; literals`,
`RUN134 ; literals`. -/

namespace Sys2Proof.Machine

/-- One code byte with its literals (R60). -/
inductive Chunk where
  /-- `MASK m ; lits`. -/
  | mask (m : Bits7) (lits : List Byte)
  /-- `RUN L ; lits`, L being the number of literals. -/
  | run (lits : List Byte)
  /-- `RUN134 ; lits`. -/
  | run134 (lits : List Byte)
  deriving DecidableEq, Repr

/-- The chunk's code byte (R61, R62, R59). -/
def Chunk.code : Chunk → Byte
  | .mask m _ => maskByte m
  | .run lits => runCode lits.length
  | .run134 _ => 0xFF#8

/-- The chunk's literal bytes, in stream order. -/
def Chunk.lits : Chunk → List Byte
  | .mask _ lits => lits
  | .run lits => lits
  | .run134 lits => lits

/-- The chunk's frame bytes: the code byte first (20_memory.md R40). -/
def Chunk.bytes (c : Chunk) : List Byte := c.code :: c.lits

/-- A chunk of the grammar (R53): the literals are non-zero and as many as the code byte declares. -/
def Chunk.wf : Chunk → Bool
  | .mask m lits => m != 0#7 && lits.length == Config.window - popcount m && lits.all (· != 0x00#8)
  | .run lits => decide (Config.runMin ≤ lits.length) && decide (lits.length ≤ Config.runMax) && lits.all (· != 0x00#8)
  | .run134 lits => lits.length == Config.runLong && lits.all (· != 0x00#8)

/-- The window bytes from position `idx` on, `fuel` of them: a zero where the mask bit is 1, the next literal where it is 0
(R57, 20_memory.md R41). It ends early when the literals do. -/
def fillWindow (m : Bits7) : Nat → Nat → List Byte → List Byte
  | 0, _, _ => []
  | fuel + 1, idx, lits =>
    if m.getLsbD idx then 0x00#8 :: fillWindow m fuel (idx + 1) lits
    else match lits with
      | [] => []
      | x :: xs => x :: fillWindow m fuel (idx + 1) xs

/-- The decoded bytes a chunk stands for (R57 to R59, R66). -/
def Chunk.decoded : Chunk → List Byte
  | .mask m lits => fillWindow m Config.window 0 lits
  | .run lits => lits ++ [0x00#8]
  | .run134 lits => lits

/-- The number of decoded bytes a chunk stands for (R66). -/
def Chunk.decodedLength : Chunk → Nat
  | .mask _ _ => Config.window
  | .run lits => lits.length + 1
  | .run134 _ => Config.runLong

/-- The bytes of a sequence of chunks. -/
def chunksBytes (cs : List Chunk) : List Byte := cs.flatMap Chunk.bytes

/-- The decoded bytes of a sequence of chunks (R70). -/
def chunksDecoded (cs : List Chunk) : List Byte := cs.flatMap Chunk.decoded

/-- A frame: chunks, then the terminator (R53). -/
def frameBytes (cs : List Chunk) : List Byte := chunksBytes cs ++ [Config.term]

/-- Every chunk is one of the grammar. -/
def chunksWf (cs : List Chunk) : Bool := cs.all Chunk.wf

/-- `ZEROS7` of R68: seven zero bytes. -/
def zeros7 : Chunk := .mask 0x7F#7 []

end Sys2Proof.Machine
end

