-- ==== Sys2Proof/Machine/Codec.lean ====
section
/-! DEFINITION. The two pure functions: `encode` (40_encoder.md R84) and `decode` (41_decoder.md R104). The recursions of the
spec consume at least one byte a round; here they run on fuel, the length of what is left, which always suffices. -/

namespace Sys2Proof.Machine

/-- The largest r ≤ min(len, 134) such that the first r bytes hold no zero (R84). -/
def runLen (b : List Byte) : Nat := min (b.takeWhile (· ≠ 0x00#8)).length Config.runLong

/-- The last chunk of a message whose remaining bytes `b` are 1 to 6: pad bits set (R84, second case). -/
def padChunk (b : List Byte) : Chunk := .mask (maskOf b ||| padBits b.length) (nonZeros b)

/-- `chunks` (R84) as a list of chunks, by its five cases. -/
def chunkList : Nat → List Byte → List Chunk
  | 0, _ => []
  | fuel + 1, b =>
    if b = [] then []
    else if b.length < Config.window then [padChunk b]
    else if 0x00#8 ∈ b.take Config.window then
      .mask (maskOf (b.take Config.window)) (nonZeros (b.take Config.window)) :: chunkList fuel (b.drop Config.window)
    else if runLen b = Config.runLong then
      .run134 (b.take Config.runLong) :: chunkList fuel (b.drop Config.runLong)
    else if runLen b < b.length then
      .run (b.take (runLen b)) :: chunkList fuel (b.drop (runLen b + 1))
    else [.run (b.take (runLen b))]

/-- The chunks of a message (R84). -/
def chunksOf (b : List Byte) : List Chunk := chunkList b.length b

/-- `encode` (R84): the chunks, then the terminator. -/
def encodeMessage (b : List Byte) : List Byte := frameBytes (chunksOf b)

/-- The padding k of a message, by the last case `chunks` reaches (42_laws.md R114): a final partial window of r bytes
gives 7 - r, a run the message ends inside gives 1, anything else 0. -/
def paddingList : Nat → List Byte → Nat
  | 0, _ => 0
  | fuel + 1, b =>
    if b = [] then 0
    else if b.length < Config.window then Config.window - b.length
    else if 0x00#8 ∈ b.take Config.window then paddingList fuel (b.drop Config.window)
    else if runLen b = Config.runLong then paddingList fuel (b.drop Config.runLong)
    else if runLen b < b.length then paddingList fuel (b.drop (runLen b + 1))
    else 1

/-- k of R114. -/
def padding (b : List Byte) : Nat := paddingList b.length b

/-- `Result` of R104. -/
inductive DecodeResult where
  /-- `Ok(out, rest)`. -/
  | ok (out rest : List Byte)
  /-- `Malformed(cause, partial)`. -/
  | malformed (cause : Cause) (out : List Byte)
  deriving DecidableEq, Repr

/-- Copying literals or windows either goes on with what is left of the frame and the output so far, or fails. -/
inductive Copied where
  | more (f acc : List Byte)
  | fails (cause : Cause) (acc : List Byte)
  deriving DecidableEq, Repr

/-- `lits(j, f, acc, k)` of R104, its continuation applied by the caller. -/
def copyLits : Nat → List Byte → List Byte → Copied
  | 0, f, acc => .more f acc
  | _ + 1, [], acc => .fails .noTerminator acc
  | j + 1, x :: f, acc => if x = 0x00#8 then .fails .truncated acc else copyLits j f (acc ++ [x])

/-- `bits(i, c, f, acc)` of R104 for the mask m, with `left` = 7 - i positions to go. -/
def copyWindow (m : Bits7) : Nat → List Byte → List Byte → Copied
  | 0, f, acc => .more f acc
  | left + 1, f, acc =>
    if m.getLsbD (Config.window - (left + 1)) then copyWindow m left f (acc ++ [0x00#8])
    else match copyLits 1 f acc with
      | .fails cause a => .fails cause a
      | .more f' a => copyWindow m left f' a

/-- `acc ++ [0x00]` after the literals of a RUN chunk (R104). -/
def Copied.thenZero : Copied → Copied
  | .more f acc => .more f (acc ++ [0x00#8])
  | .fails cause acc => .fails cause acc

/-- One chunk of R104's `go`: what a code byte `c` ≠ 0x00 copies from `f`. -/
def copyChunk (c : Byte) (f acc : List Byte) : Copied :=
  if c = 0xFF#8 then copyLits Config.runLong f acc
  else if c.getLsbD 7 then (copyLits (runLength (c.setWidth 7)) f acc).thenZero
  else copyWindow (c.setWidth 7) Config.window f acc

/-- `go(f, acc)` of R104. Every round consumes a byte, so fuel above the length of `f` suffices. -/
def decodeFrom : Nat → List Byte → List Byte → DecodeResult
  | 0, _, acc => .malformed .noTerminator acc
  | _ + 1, [], acc => .malformed .noTerminator acc
  | fuel + 1, c :: f, acc =>
    if c = 0x00#8 then .ok acc f
    else match copyChunk c f acc with
      | .more f' a => decodeFrom fuel f' a
      | .fails cause a => .malformed cause a

/-- `decode(f)` (R104). -/
def decodeFrame (f : List Byte) : DecodeResult := decodeFrom (f.length + 1) f []

end Sys2Proof.Machine
end

