-- ==== Sys2Proof/Safety.lean ====
section
/-! DEFINITION. The terms of the claims: the invariants of the two blocks (10_state.md R22, R28), what a block's input moves
are, runs of the machine, and the error seen in a trace (R30). -/

namespace Sys2Proof.Machine

/-- R22 (a) to (d): the encoder's registers between events. -/
abbrev EncState.Inv (e : EncState) : Prop :=
  e.run ≤ Config.runMax ∧
  (∀ b ∈ e.lits, b ≠ 0x00#8) ∧
  (e.run < Config.window → (∀ i < Config.window, e.run ≤ i → e.zeros.getLsbD i = false) ∧
    e.lits.length + popcount e.zeros = e.run) ∧
  (Config.window ≤ e.run → e.zeros = 0#7 ∧ e.lits.length = e.run)

/-- The bounds of R28 on the registers of a mode. A RUN chunk begins with at most 133 literals (R95), so `cnt` = 134 only
without an implied zero; a MASK code byte is not 0x00 (R57). -/
def Ctl.wf : Ctl → Bool
  | .code => true
  | .lit cnt az => decide (1 ≤ cnt) && decide (cnt ≤ Config.runLong) && (!az || decide (cnt ≤ Config.runMax))
  | .mask m idx => decide (idx < Config.window) && !m.getLsbD idx && m != 0#7

/-- The bounds of R28 as a proposition. -/
abbrev Ctl.Inv (c : Ctl) : Prop := c.wf = true

/-- R28: the decoder's registers. -/
abbrev DecState.Inv (d : DecState) : Prop := d.ctl.Inv ∧ (d.ctl ≠ .code → d.inframe = true)

/-- Both blocks meet their invariants. -/
abbrev State.Inv (s : State) : Prop := s.enc.Inv ∧ s.dec.Inv

/-- The message bytes the encoder holds: its window or run in message order (10_state.md R18, R20, R32). -/
def EncState.held (e : EncState) : List Byte :=
  if e.run < Config.window then fillWindow e.zeros e.run 0 e.lits else e.lits

/-- The bytes emitted by the encoder and the bytes its downstream has accepted, in order: its output trace (R47). -/
def State.encTrace (s : State) : List Byte := s.encSent ++ s.encOut

/-- The decoder's output trace (R47). -/
def State.decTrace (s : State) : List DecEvent := s.decSent ++ s.decOut

/-- R30: some `END(status)` with status other than `OK` occurs in the trace. -/
def malformedSeen (t : List DecEvent) : Bool := t.any DecEvent.isMalformed

/-- `PUT(b)` for each byte of a message on enc_in. -/
def encPuts (b : List Byte) : List Move := b.map (fun x => .encIn (putBits x))

/-- A message on enc_in: its `PUT`s, then `END` (20_memory.md R36). -/
def encMessage (b : List Byte) : List Move := encPuts b ++ [.encIn markerBits]

/-- `PUT(c)` for each frame byte on dec_in. -/
def decPuts (f : List Byte) : List Move := f.map (fun x => .decIn (putBits x))

/-- `EOI` on dec_in. -/
def eoiMove : Move := .decIn markerBits

/-- `DATA` of each byte in order. -/
def dataEvents (bs : List Byte) : List DecEvent := bs.map .data

/-- `DATA` of a decoded output, closed by `END(OK)`. -/
def okEvents (bs : List Byte) : List DecEvent := dataEvents bs ++ [.frameEnd .ok]

/-- `k` steps of the machine. -/
def runFor (k : Nat) (s : State) : Host.Outcome State Fault Refusal := Host.Core.run Sys2Proof.core k s

/-- The decoder is at a frame boundary (R27). -/
abbrev State.AtBoundary (s : State) : Prop := s.dec = DecState.reset

/-- A run is over: every move is made and every output event transferred (70_reset_and_hazards.md R162). -/
abbrev State.RunOver (s : State) : Prop := s.moves = [] ∧ s.encOut = [] ∧ s.decOut = []

/-- An encoder run is complete when nothing is held (R162). -/
abbrev State.EncComplete (s : State) : Prop := s.enc = EncState.reset

/-- A decoder run is complete at a frame boundary (R162). -/
abbrev State.DecComplete (s : State) : Prop := s.AtBoundary

/-- A byte sequence is a well-formed frame (30_encoding.md R53, R54). -/
def IsFrame (f : List Byte) : Prop := ∃ cs, chunksWf cs = true ∧ f = frameBytes cs

/-- What one chunk can stand for (42_laws.md R124): 7 bytes with at least one zero, or 7 to 133 non-zero bytes and a zero,
or 134 non-zero bytes. -/
def IsBlock (w : List Byte) : Prop :=
  (w.length = Config.window ∧ 0x00#8 ∈ w) ∨
  (∃ l, w = l ++ [0x00#8] ∧ Config.runMin ≤ l.length ∧ l.length ≤ Config.runMax ∧ 0x00#8 ∉ l) ∨
  (w.length = Config.runLong ∧ 0x00#8 ∉ w)

/-- Which block an instruction concerns (R15). -/
def blockOf : Instr → Block
  | .frameEnd => .decoder
  | .mask _ => .decoder
  | .run _ => .decoder
  | .run134 => .decoder
  | .literal _ => .decoder
  | .zeroInLiteral => .decoder
  | .encPut _ => .encoder
  | .encEnd => .encoder
  | .decPut _ => .decoder
  | .decEoi => .decoder
  | .reset blk => blk

/-- Whether an instruction is a RESET. -/
def isReset : Instr → Bool
  | .frameEnd => false
  | .mask _ => false
  | .run _ => false
  | .run134 => false
  | .literal _ => false
  | .zeroInLiteral => false
  | .encPut _ => false
  | .encEnd => false
  | .decPut _ => false
  | .decEoi => false
  | .reset _ => true

end Sys2Proof.Machine
end

