-- ==== Sys2Proof/Certificates/Slice0/Obligations.lean ====
section
/-! DEFINITION. The statements about the model. Rules are cited as R<n> of spec/; what rests on a choice of the model or on
a decision D<n> of the spec (92_eei_decisions.md) is said so in the docstring. -/

open Sys2Proof Sys2Proof.Machine

/-- R147, the table of reset values. -/
def Obligations.ResetStateHoldsTheSpecValues : Prop :=
  State.reset.enc.run = 0 ∧ State.reset.enc.zeros = 0#7 ∧ (∀ i, State.reset.enc.buf i = none) ∧
  State.reset.dec.ctl.mode = 0#2 ∧ State.reset.dec.inframe = false ∧
  State.reset.dec.ctl.cnt = none ∧ State.reset.dec.ctl.az = none ∧
  State.reset.dec.ctl.maskReg = none ∧ State.reset.dec.ctl.idx = none ∧
  State.reset.encOut = [] ∧ State.reset.decOut = []

/-- R33, R34: what RESET leaves; nothing is emitted, what was pending is lost (R146), the other block is untouched. -/
def Obligations.ResetPutsOneBlockInItsResetState : Prop :=
  ∀ s, exec (.reset .encoder) s = .next { s with enc := ⟨0, 0#7, []⟩, encOut := [] } ∧
    exec (.reset .decoder) s = .next { s with dec := ⟨.code, false⟩, decOut := [] }

/-- R73, R74, R75: `ENC.PUT` in the window phase. The byte joins the window; a full window with a zero is emitted as a
MASK chunk, code byte first. Nothing else changes. -/
def Obligations.EncPutInWindowPhase : Prop :=
  ∀ (s : State) (b : Byte) (e : EncState), s.enc.run ≤ 6 →
    e = (if b = 0x00#8 then ⟨s.enc.run + 1, s.enc.zeros ||| (1#7 <<< s.enc.run), s.enc.lits⟩
      else ⟨s.enc.run + 1, s.enc.zeros, s.enc.lits ++ [b]⟩) →
    exec (.encPut b) s = .next
      (if e.run = 7 ∧ e.zeros ≠ 0#7
        then { s with enc := ⟨0, 0#7, []⟩, encOut := s.encOut ++ e.zeros.setWidth 8 :: e.lits }
        else { s with enc := e })

/-- R77, R78: a non-zero byte in the run phase joins the run; a run of 134 is emitted at once under code 0xFF. Nothing else
changes. -/
def Obligations.EncPutExtendsARun : Prop :=
  ∀ (s : State) (b : Byte), b ≠ 0x00#8 →
    (7 ≤ s.enc.run → s.enc.run ≤ 132 → exec (.encPut b) s = .next
      { s with enc := ⟨s.enc.run + 1, s.enc.zeros, s.enc.lits ++ [b]⟩ }) ∧
    (s.enc.run = 133 → exec (.encPut b) s = .next
      { s with enc := ⟨0, 0#7, []⟩, encOut := s.encOut ++ 0xFF#8 :: (s.enc.lits ++ [b]) })

/-- A zero in the run phase ends the run and is absorbed: the RUN chunk comes out, the zero is neither stored nor counted. The
spec marks this as its own inference (40_encoder.md R76 "[derived: from 41_decoder.md rule R95 and 42_laws.md rule R110]",
D5). Nothing else changes. -/
def Obligations.EncPutZeroEndsARun : Prop :=
  ∀ s : State, 7 ≤ s.enc.run → s.enc.run ≤ 133 → exec (.encPut 0x00#8) s = .next
    { s with enc := ⟨0, 0#7, []⟩, encOut := s.encOut ++ (BitVec.ofNat 8 (s.enc.run - 7) ||| 0x80#8) :: s.enc.lits }

/-- R80: `ENC.END`, its three cases (R81, R82, R83), and the state it leaves. Nothing else changes. -/
def Obligations.EncEndClosesTheFrame : Prop :=
  ∀ s : State,
    (s.enc.run = 0 → exec .encEnd s = .next { s with encOut := s.encOut ++ [0x00#8] }) ∧
    (1 ≤ s.enc.run → s.enc.run ≤ 6 → exec .encEnd s = .next
      { s with enc := ⟨0, 0#7, []⟩,
               encOut := s.encOut ++ ((s.enc.zeros ||| (0x7F#7 <<< s.enc.run)).setWidth 8 :: s.enc.lits ++ [0x00#8]) }) ∧
    (7 ≤ s.enc.run → s.enc.run ≤ 133 → exec .encEnd s = .next
      { s with enc := ⟨0, 0#7, []⟩,
               encOut := s.encOut ++ ((BitVec.ofNat 8 (s.enc.run - 7) ||| 0x80#8) :: s.enc.lits ++ [0x00#8]) }) ∧
    (s.enc.Inv → ∃ t, exec .encEnd s = .next t ∧ t.enc = ⟨0, 0#7, []⟩)

/-- R92: the terminator in a code position. -/
def Obligations.EndOfFrameReportsOk : Prop :=
  ∀ s : State, s.dec.ctl = .code →
    exec .frameEnd s = .next { s with dec := ⟨.code, false⟩, decOut := s.decOut ++ [.frameEnd .ok] }

/-- R94 as R93 uses it: a MASK code byte. The zeros before the first literal position i come out at once (D18); the mode is
`CODE` when the window is complete, else `MASK`, awaiting position i. Nothing else changes. -/
def Obligations.MaskCodeDrainsLeadingZeros : Prop :=
  ∀ (s : State) (m : Bits7), s.dec.ctl = .code → m ≠ 0#7 →
    ∃ i ≤ 7, (∀ j < i, m.getLsbD j = true) ∧ (i < 7 → m.getLsbD i = false) ∧
      exec (.mask m) s = .next
        { s with dec := ⟨if i = 7 then .code else .mask m i, true⟩,
                 decOut := s.decOut ++ List.replicate i (.data 0x00#8) }

/-- R95: a RUN code byte with field n declares n + 7 literals and an implied zero. -/
def Obligations.RunCodeDeclaresLiterals : Prop :=
  ∀ (s : State) (n : Bits7), s.dec.ctl = .code → n ≠ 127#7 →
    exec (.run n) s = .next { s with dec := ⟨.lit (n.toNat + 7) true, true⟩ } ∧ 7 ≤ n.toNat + 7 ∧ n.toNat + 7 ≤ 133

/-- R96: the RUN134 code byte declares 134 literals and no implied zero. -/
def Obligations.Run134CodeDeclaresLiterals : Prop :=
  ∀ s : State, s.dec.ctl = .code → exec .run134 s = .next { s with dec := ⟨.lit 134 false, true⟩ }

/-- R99: a literal byte of a run; the implied zero comes with the last literal of a RUN chunk (D18). -/
def Obligations.RunLiteralIsCopied : Prop :=
  ∀ (s : State) (v : Byte) (cnt : Nat) (az : Bool), v ≠ 0x00#8 → s.dec.ctl = .lit cnt az → 1 ≤ cnt →
    exec (.literal v) s = .next
      (if cnt = 1
        then { s with dec := ⟨.code, s.dec.inframe⟩,
                      decOut := s.decOut ++ .data v :: (if az then [.data 0x00#8] else []) }
        else { s with dec := ⟨.lit (cnt - 1) az, s.dec.inframe⟩, decOut := s.decOut ++ [.data v] })

/-- R100, R94: a literal byte of a window is copied, then the zeros up to the next literal position i come out (D18). -/
def Obligations.WindowLiteralIsCopiedAndDrained : Prop :=
  ∀ (s : State) (v : Byte) (m : Bits7) (idx : Nat), v ≠ 0x00#8 → s.dec.ctl = .mask m idx → idx ≤ 6 →
    ∃ i, idx < i ∧ i ≤ 7 ∧ (∀ j, idx < j → j < i → m.getLsbD j = true) ∧ (i < 7 → m.getLsbD i = false) ∧
      exec (.literal v) s = .next
        { s with dec := ⟨if i = 7 then .code else .mask m i, s.dec.inframe⟩,
                 decOut := s.decOut ++ .data v :: List.replicate (i - (idx + 1)) (.data 0x00#8) }

/-- R98, R130: 0x00 in a literal position raises `MalformedFrame(TRUNCATED)`: `END(TRUNCATED)` and nothing else is emitted,
and the decoder is at a frame boundary. That it goes on from there is decision D11. -/
def Obligations.ZeroInLiteralRaisesTruncated : Prop :=
  ∀ s : State, s.dec.ctl.position = .literal →
    exec .zeroInLiteral s = .next
      { s with dec := ⟨.code, false⟩, decOut := s.decOut ++ [.frameEnd (.malformedFrame .truncated)] }

/-- R103: `DEC.EOI` raises `MalformedFrame(NO_TERMINATOR)` while a frame is in progress and is a no-op otherwise (D12). -/
def Obligations.EoiRaisesNoTerminatorInFrame : Prop :=
  ∀ s : State,
    (s.dec.inframe = true → exec .decEoi s = .next
      { s with dec := ⟨.code, false⟩, decOut := s.decOut ++ [.frameEnd (.malformedFrame .noTerminator)] }) ∧
    (s.dec.inframe = false → exec .decEoi s = .next s)

/-- R91: the dispatch of `DEC.PUT` by mode and byte, row by row. -/
def Obligations.DecPutDispatch : Prop :=
  ∀ (s : State) (c : Byte),
    (s.dec.ctl.position = .code → c.toNat = 0 → exec (.decPut c) s = exec .frameEnd s) ∧
    (s.dec.ctl.position = .code → 1 ≤ c.toNat → c.toNat ≤ 0x7F → exec (.decPut c) s = exec (.mask (c.setWidth 7)) s) ∧
    (s.dec.ctl.position = .code → 0x80 ≤ c.toNat → c.toNat ≤ 0xFE → exec (.decPut c) s = exec (.run (c.setWidth 7)) s) ∧
    (s.dec.ctl.position = .code → c.toNat = 0xFF → exec (.decPut c) s = exec .run134 s) ∧
    (s.dec.ctl.position = .literal → c.toNat = 0 → exec (.decPut c) s = exec .zeroInLiteral s) ∧
    (s.dec.ctl.position = .literal → c.toNat ≠ 0 → exec (.decPut c) s = exec (.literal c) s)

/-- 41_decoder.md section 5 (R106, marked as derived there): the decoder's transition table, row by row. `inframe` becomes 1 when a non-zero byte is consumed in mode `CODE`
and 0 when an `END(...)` is emitted. -/
def Obligations.DecoderTransitionTable : Prop :=
  ∀ (s : State) (c : Byte),
    (s.dec.ctl = .code → c = 0x00#8 → exec (.decPut c) s = .next
      { s with dec := ⟨.code, false⟩, decOut := s.decOut ++ [.frameEnd .ok] }) ∧
    (s.dec.ctl = .code → c = 0x7F#8 → exec (.decPut c) s = .next
      { s with dec := ⟨.code, true⟩, decOut := s.decOut ++ List.replicate 7 (.data 0x00#8) }) ∧
    (∀ i, s.dec.ctl = .code → 1 ≤ c.toNat → c.toNat ≤ 0x7E → i < 7 → c.getLsbD i = false →
      (∀ j < i, c.getLsbD j = true) → exec (.decPut c) s = .next
      { s with dec := ⟨.mask (c.setWidth 7) i, true⟩, decOut := s.decOut ++ List.replicate i (.data 0x00#8) }) ∧
    (s.dec.ctl = .code → 0x80 ≤ c.toNat → c.toNat ≤ 0xFE → exec (.decPut c) s = .next
      { s with dec := ⟨.lit (c.toNat - 121) true, true⟩ }) ∧
    (s.dec.ctl = .code → c = 0xFF#8 → exec (.decPut c) s = .next { s with dec := ⟨.lit 134 false, true⟩ }) ∧
    (∀ j az, s.dec.ctl = .lit j az → 2 ≤ j → c ≠ 0x00#8 → exec (.decPut c) s = .next
      { s with dec := ⟨.lit (j - 1) az, s.dec.inframe⟩, decOut := s.decOut ++ [.data c] }) ∧
    (s.dec.ctl = .lit 1 true → c ≠ 0x00#8 → exec (.decPut c) s = .next
      { s with dec := ⟨.code, s.dec.inframe⟩, decOut := s.decOut ++ [.data c, .data 0x00#8] }) ∧
    (s.dec.ctl = .lit 1 false → c ≠ 0x00#8 → exec (.decPut c) s = .next
      { s with dec := ⟨.code, s.dec.inframe⟩, decOut := s.decOut ++ [.data c] }) ∧
    (∀ m i i', s.dec.ctl = .mask m i → c ≠ 0x00#8 → i < i' → i' < 7 → m.getLsbD i' = false →
      (∀ j, i < j → j < i' → m.getLsbD j = true) → exec (.decPut c) s = .next
      { s with dec := ⟨.mask m i', s.dec.inframe⟩,
               decOut := s.decOut ++ .data c :: List.replicate (i' - (i + 1)) (.data 0x00#8) }) ∧
    (∀ m i, s.dec.ctl = .mask m i → c ≠ 0x00#8 → i < 7 → (∀ j, i < j → j < 7 → m.getLsbD j = true) →
      exec (.decPut c) s = .next
      { s with dec := ⟨.code, s.dec.inframe⟩,
               decOut := s.decOut ++ .data c :: List.replicate (7 - (i + 1)) (.data 0x00#8) }) ∧
    (s.dec.ctl ≠ .code → c = 0x00#8 → exec (.decPut c) s = .next
      { s with dec := ⟨.code, false⟩, decOut := s.decOut ++ [.frameEnd (.malformedFrame .truncated)] }) ∧
    (s.dec.inframe = true → exec .decEoi s = .next
      { s with dec := ⟨.code, false⟩, decOut := s.decOut ++ [.frameEnd (.malformedFrame .noTerminator)] }) ∧
    (s.dec.ctl = .code → s.dec.inframe = false → exec .decEoi s = .next s)

/-- 20_memory.md R51, log 7: a frame-byte instruction is its byte. Whatever the decoder's mode, executing it is `DEC.PUT` of
the byte that encodes it; in the position that is not its own the byte is read as the mode says. That the model gives the
instruction this meaning there is the model's choice (log 7). -/
def Obligations.FrameByteInstructionIsItsByte : Prop :=
  ∀ (i : Instr) (b : Byte), i.WellFormed → (encode i = .code b ∨ encode i = .literal b) →
    ∀ s, exec i s = exec (.decPut b) s

/-- A step runs the decoded instruction: the word of the next move is decoded and executed with the move taken from the
list (the list of moves is the model's own, log 4). -/
def Obligations.StepRunsTheDecodedInstruction : Prop :=
  ∀ (s : State) (mv : Move) (rest : List Move) (w : TableWord) (i : Instr),
    s.moves = mv :: rest → mv.word = some w → decode w = .ok i → step s = exec i { s with moves := rest }

/-- R48, R47: an output transfer hands the oldest pending event, and only it, to the downstream, so the trace of a block is
unchanged; with nothing pending no transfer happens. The records `encSent`, `decSent` are the model's own (log 5). -/
def Obligations.OutputTransferIsLosslessAndInOrder : Prop :=
  ∀ (s : State) (rest : List Move),
    (∀ b bs, s.moves = .encOut :: rest → s.encOut = b :: bs →
      step s = .next { s with moves := rest, encOut := bs, encSent := s.encSent ++ [b] }) ∧
    (s.moves = .encOut :: rest → s.encOut = [] → step s = .next { s with moves := rest }) ∧
    (∀ e es, s.moves = .decOut :: rest → s.decOut = e :: es →
      step s = .next { s with moves := rest, decOut := es, decSent := s.decSent ++ [e] }) ∧
    (s.moves = .decOut :: rest → s.decOut = [] → step s = .next { s with moves := rest })

/-- R140, R52, log 9, log 18: with no move left the blocks wait and keep their state; `rst` = 0 is no event. -/
def Obligations.NoEventChangesNothing : Prop :=
  ∀ s : State, (s.moves = [] → step s = .next s) ∧
    (∀ blk rest, s.moves = .rst blk 0#1 :: rest → step s = .next { s with moves := rest })

/-- R160, R86: no instruction and no step stops the machine, in any state. -/
def Obligations.EveryInstructionAndStepCompletes : Prop :=
  (∀ i s, ∃ t, exec i s = .next t) ∧ ∀ s, ∃ t, step s = .next t

/-- R47: an instruction other than RESET only appends to the pending output of its own block; R49: it changes nothing of the
other block; and it touches neither the downstreams' records nor the surroundings' moves. -/
def Obligations.InstructionFrame : Prop :=
  ∀ i s t, exec i s = .next t →
    t.encSent = s.encSent ∧ t.decSent = s.decSent ∧ t.moves = s.moves ∧
    (isReset i = false → s.encOut <+: t.encOut ∧ s.decOut <+: t.decOut) ∧
    (blockOf i = .encoder → t.dec = s.dec ∧ t.decOut = s.decOut) ∧
    (blockOf i = .decoder → t.enc = s.enc ∧ t.encOut = s.encOut)

/-- R49: what an instruction does to its block depends on that block's registers alone: in two states that agree on the
registers it leaves the same registers and appends the same output, whatever the rest of the two states is. -/
def Obligations.BlocksDoNotInfluenceEachOther : Prop :=
  ∀ i s s' t t', isReset i = false → exec i s = .next t → exec i s' = .next t' →
    (blockOf i = .encoder → s.enc = s'.enc →
      t.enc = t'.enc ∧ ∃ out, t.encOut = s.encOut ++ out ∧ t'.encOut = s'.encOut ++ out) ∧
    (blockOf i = .decoder → s.dec = s'.dec →
      t.dec = t'.dec ∧ ∃ out, t.decOut = s.decOut ++ out ∧ t'.decOut = s'.decOut ++ out)

/-- The invariant of the two blocks (R22, R28) holds at reset. -/
def Obligations.InvariantHoldsAtReset : Prop := State.reset.Inv

/-- R22, R28: every step keeps the invariant, from every state that meets it. -/
def Obligations.StepKeepsTheInvariant : Prop :=
  ∀ s t, s.Inv → step s = .next t → t.Inv

/-- R121, R19, R25, R26: in a state that meets the invariant every register fits its width without wrap-around. -/
def Obligations.RegistersFitTheirWidths : Prop :=
  ∀ s : State, s.Inv →
    s.enc.runReg.toNat = s.enc.run ∧ s.enc.lits.length ≤ 133 ∧
    (∀ cnt az, s.dec.ctl = .lit cnt az → ∃ r, s.dec.ctl.cnt = some r ∧ r.toNat = cnt) ∧
    (∀ m idx, s.dec.ctl = .mask m idx → ∃ r, s.dec.ctl.idx = some r ∧ r.toNat = idx)

/-- R148: the encoder after `END`, and the decoder after any event `END(...)`, are in their reset states. -/
def Obligations.ResetStateEqualsEndOfFrameState : Prop :=
  (∀ s t, s.enc.Inv → exec .encEnd s = .next t → t.enc = EncState.reset) ∧
  (∀ i s t st, isReset i = false → exec i s = .next t → .frameEnd st ∈ t.decOut.drop s.decOut.length →
    t.dec = DecState.reset)

/-- R30: an error the downstream has seen is never unseen: the accepted trace only grows, in every step. -/
def Obligations.SeenErrorsStaySeen : Prop :=
  ∀ s t, step s = .next t → s.decSent <+: t.decSent ∧ s.encSent <+: t.encSent ∧
    (malformedSeen s.decSent = true → malformedSeen t.decSent = true)

/-- Decode and encode agree on every instruction, with every operand the encoding admits. -/
def Obligations.DecodeOfEncodeIsTheInstruction : Prop :=
  ∀ i : Instr, i.WellFormed → decode (encode i) = .ok i

/-- R63, R64, R17: every frame byte, in a code and in a literal position, and every word of an input port decodes to an
instruction, and whatever decodes is well formed. A frame byte is the encoding of what it decodes to, a port word below 256 is
`PUT` of its low byte, and every other port word is the marker event, its data bits ignored (R17). The reset words are not
spoken of here. -/
def Obligations.FrameBytesAndPortWordsDecode : Prop :=
  ∀ w : TableWord,
    (∀ i, decode w = .ok i → i.WellFormed) ∧
    (∀ b, w = .code b ∨ w = .literal b → ∃ i, decode w = .ok i ∧ encode i = w) ∧
    (∀ p, w = .encIn p → decode w = .ok (if p.toNat < 256 then .encPut (p.setWidth 8) else .encEnd)) ∧
    (∀ p, w = .decIn p → decode w = .ok (if p.toNat < 256 then .decPut (p.setWidth 8) else .decEoi)) ∧
    (∀ b, decode (.encIn (b.setWidth 9)) = .ok (.encPut b) ∧ decode (.decIn (b.setWidth 9)) = .ok (.decPut b))

/-- R63: the opcode map of a code position, by value ranges, with the operands. -/
def Obligations.CodePositionOpcodeMap : Prop :=
  ∀ c : Byte,
    (c.toNat = 0 → decode (.code c) = .ok .frameEnd ∧ literalCount .frameEnd = 0) ∧
    (1 ≤ c.toNat → c.toNat ≤ 0x7F → ∃ m, decode (.code c) = .ok (.mask m) ∧ m.toNat = c.toNat ∧
      literalCount (.mask m) = 7 - popcount m) ∧
    (0x80 ≤ c.toNat → c.toNat ≤ 0xFE → ∃ n, decode (.code c) = .ok (.run n) ∧ literalCount (.run n) = c.toNat - 121) ∧
    (c.toNat = 0xFF → decode (.code c) = .ok .run134 ∧ literalCount .run134 = 134) ∧
    (c.toNat ≠ 0 → decode (.literal c) = .ok (.literal c)) ∧
    (c.toNat = 0 → decode (.literal c) = .ok .zeroInLiteral)

/-- R61: the run length of a RUN code byte and the code byte of a run. -/
def Obligations.RunLengthField : Prop :=
  (∀ c : Byte, 0x80 ≤ c.toNat → c.toNat ≤ 0xFE → ∃ n, decode (.code c) = .ok (.run n) ∧
    n.toNat = c.toNat - 0x80 ∧ BitVec.toNat (c &&& 0x7F#8) = n.toNat ∧ runLength n = n.toNat + 7) ∧
  (∀ len, 7 ≤ len → len ≤ 133 → ∃ n, decode (.code (runCode len)) = .ok (.run n) ∧ runLength n = len ∧
    runCode len = BitVec.ofNat 8 (len - 7) ||| 0x80#8) ∧
  runCode 7 = 0x80#8 ∧ runCode 133 = 0xFE#8 ∧
  decode (.code 0xFF#8) = .ok .run134 ∧ ∀ n : Bits7, 7 ≤ runLength n

/-- Words of spec/opcode_table.json and 95_test_vectors.md V-C, written out from the encodings. -/
def Obligations.SampleWordsDecode : Prop :=
  decode (.code 0b00000000#8) = .ok .frameEnd ∧
  decode (.code 0b00011010#8) = .ok (.mask 0b0011010#7) ∧
  decode (.code 0b11000000#8) = .ok (.run 64#7) ∧
  decode (.code 0b11111111#8) = .ok .run134 ∧
  decode (.literal 0b10000000#8) = .ok (.literal 0x80#8) ∧
  decode (.literal 0b00000000#8) = .ok .zeroInLiteral ∧
  decode (.encIn 0b001011010#9) = .ok (.encPut 0x5A#8) ∧
  decode (.encIn 0b110000001#9) = .ok .encEnd ∧
  decode (.decIn 0b000011010#9) = .ok (.decPut 0x1A#8) ∧
  decode (.decIn 0b100000000#9) = .ok .decEoi ∧
  decode (.rst .decoder 0b1#1) = .ok (.reset .decoder)

/-- R128: the status codes; 3 is never produced. -/
def Obligations.StatusCodes : Prop :=
  Status.code .ok = 0#2 ∧ Status.code (.malformedFrame .truncated) = 1#2 ∧
  Status.code (.malformedFrame .noTerminator) = 2#2 ∧
  (∀ st : Status, st.code ≠ 3#2 ∧ Status.ofCode st.code = some st) ∧ Status.ofCode 3#2 = none

/-- R18, R20, R75 to R78: what the encoder holds are exactly the message bytes not yet emitted. A `PUT` either adds its byte
to them, or emits one chunk of the grammar that stands for them and the byte, and holds nothing. -/
def Obligations.EncPutHoldsOrEmitsTheMessage : Prop :=
  ∀ s b t, s.enc.Inv → exec (.encPut b) s = .next t →
    s.enc.held.length = s.enc.run ∧
    ((t.encOut = s.encOut ∧ t.enc.held = s.enc.held ++ [b]) ∨
     (∃ c : Chunk, c.wf = true ∧ t.encOut = s.encOut ++ c.bytes ∧ c.decoded = s.enc.held ++ [b] ∧
       t.enc = EncState.reset))

/-- R80, R114: `END` emits what is held, padded with k zeros, as at most one chunk, then the terminator. -/
def Obligations.EncEndEmitsTheHeldBytes : Prop :=
  ∀ s t, s.enc.Inv → exec .encEnd s = .next t →
    ∃ cs k, chunksWf cs = true ∧ cs.length ≤ 1 ∧ t.encOut = s.encOut ++ chunksBytes cs ++ [0x00#8] ∧
      chunksDecoded cs = s.enc.held ++ zeros k ∧
      k = (if s.enc.run = 0 then 0 else if s.enc.run ≤ 6 then 7 - s.enc.run else 1)

/-- R87: the output of one event of the encoder. -/
def Obligations.EncoderOutputPerEvent : Prop :=
  ∀ s : State, s.enc.Inv →
    (∀ b t, exec (.encPut b) s = .next t → ∃ out, t.encOut = s.encOut ++ out ∧
      (out = [] ∨ (s.enc.run = 6 ∧ 1 ≤ out.length ∧ out.length ≤ 7) ∨
       (7 ≤ s.enc.run ∧ b = 0x00#8 ∧ 8 ≤ out.length ∧ out.length ≤ 134) ∨
       (s.enc.run = 133 ∧ b ≠ 0x00#8 ∧ out.length = 135))) ∧
    (∀ t, exec .encEnd s = .next t → ∃ out, t.encOut = s.encOut ++ out ∧
      (s.enc.run = 0 → out.length = 1) ∧
      (1 ≤ s.enc.run → s.enc.run ≤ 6 → 2 ≤ out.length ∧ out.length ≤ 8) ∧
      (7 ≤ s.enc.run → 9 ≤ out.length ∧ out.length ≤ 135))

/-- R102: the output of one event of the decoder; at most 7 events. -/
def Obligations.DecoderOutputPerEvent : Prop :=
  ∀ s : State, s.dec.Inv →
    (∀ c t, exec (.decPut c) s = .next t → ∃ out, t.decOut = s.decOut ++ out ∧ out.length ≤ 7 ∧
      (s.dec.ctl = .code → out = [.frameEnd .ok] ∨ ∃ k, out = List.replicate k (.data 0x00#8)) ∧
      (s.dec.ctl = .code → 0x80 ≤ c.toNat → out = []) ∧
      (∀ cnt az, s.dec.ctl = .lit cnt az → out = [.frameEnd (.malformedFrame .truncated)] ∨
        out = [.data c] ∨ out = [.data c, .data 0x00#8]) ∧
      (∀ m idx, s.dec.ctl = .mask m idx → out = [.frameEnd (.malformedFrame .truncated)] ∨
        ∃ k ≤ 6, out = .data c :: List.replicate k (.data 0x00#8))) ∧
    (∀ t, exec .decEoi s = .next t →
      t.decOut = s.decOut ∨ t.decOut = s.decOut ++ [.frameEnd (.malformedFrame .noTerminator)])

/-- R66: lengths of the chunks of the grammar. The code byte declares the literals that follow, and a chunk stands for 7,
L + 1 or 134 bytes. -/
def Obligations.ChunkLengths : Prop :=
  ∀ c : Chunk, c.wf = true →
    c.code ≠ 0x00#8 ∧ c.lits.length = literalCount (decodeCode c.code) ∧ c.bytes.length = 1 + c.lits.length ∧
    c.decoded.length = c.decodedLength ∧ 0x00#8 ∉ c.bytes

/-- R93, R95, R96, R70: fed the bytes of a chunk, the decoder emits as `DATA` exactly what the chunk stands for and is in a
code position again, inside the frame. -/
def Obligations.DecoderDecodesAChunk : Prop :=
  ∀ (c : Chunk) (s : State) (rest : List Move), c.wf = true → s.dec.ctl = .code → s.moves = decPuts c.bytes ++ rest →
    runFor c.bytes.length s = .next
      { s with moves := rest, dec := ⟨.code, true⟩, decOut := s.decOut ++ dataEvents c.decoded }

/-- R85: the encoder machine computes the function `encode`, message after message, and ends in its reset state. -/
def Obligations.EncoderMachineComputesEncode : Prop :=
  ∀ (msgs : List (List Byte)) (s : State) (rest : List Move),
    s.enc = EncState.reset → s.moves = msgs.flatMap encMessage ++ rest →
    runFor (msgs.flatMap encMessage).length s = .next
      { s with moves := rest, encOut := s.encOut ++ msgs.flatMap encodeMessage }

/-- R118: after any `PUT`s the bytes emitted are whole chunks that stand for all message bytes but the last `enc.run`, at
most 133, and are a prefix of the frame whatever follows. -/
def Obligations.EncoderLagAndPrefixStability : Prop :=
  ∀ (b : List Byte) (s : State), s.enc = EncState.reset → s.moves = encPuts b →
    ∃ t cs, runFor b.length s = .next t ∧ t.encOut = s.encOut ++ chunksBytes cs ∧ chunksWf cs = true ∧
      t.enc.run ≤ 133 ∧ t.enc.run ≤ b.length ∧ chunksDecoded cs = b.take (b.length - t.enc.run) ∧
      ∀ c, chunksBytes cs <+: encodeMessage (b ++ c)

/-- R105 (a): on a sequence that `decode` accepts, the decoder machine emits the output, then `END(OK)` with the byte just
before `rest`, and is at a frame boundary with `rest` to come. -/
def Obligations.DecoderMachineComputesDecodeOk : Prop :=
  ∀ (f out rest : List Byte) (s : State) (more : List Move),
    s.dec = DecState.reset → s.moves = decPuts f ++ more → decodeFrame f = .ok out rest →
    ∃ used t, f = used ++ 0x00#8 :: rest ∧ runFor used.length s = .next t ∧ t.decOut = s.decOut ++ dataEvents out ∧
      runFor (used.length + 1) s = .next
        { s with moves := decPuts rest ++ more, decOut := s.decOut ++ okEvents out }

/-- R105 (b): on a truncated frame it emits the partial output, then `END(TRUNCATED)` with the offending zero, and takes
what follows as a fresh stream (D11; that the partial output is this much is D18). -/
def Obligations.DecoderMachineComputesDecodeTruncated : Prop :=
  ∀ (f part : List Byte) (s : State) (more : List Move),
    s.dec = DecState.reset → s.moves = decPuts f ++ more → decodeFrame f = .malformed .truncated part →
    ∃ used rest t, f = used ++ 0x00#8 :: rest ∧ runFor used.length s = .next t ∧
      t.decOut = s.decOut ++ dataEvents part ∧
      runFor (used.length + 1) s = .next
        { s with moves := decPuts rest ++ more,
                 decOut := s.decOut ++ dataEvents part ++ [.frameEnd (.malformedFrame .truncated)] }

/-- R105 (c), (d): on a sequence without a terminator it emits the partial output and, at `EOI`, `END(NO_TERMINATOR)`; on
the empty sequence the machine is silent where the function reports the error (D12). -/
def Obligations.DecoderMachineComputesDecodeNoTerminator : Prop :=
  ∀ (f part : List Byte) (s : State) (more : List Move),
    s.dec = DecState.reset → s.moves = decPuts f ++ eoiMove :: more → decodeFrame f = .malformed .noTerminator part →
    (f ≠ [] → 0x00#8 ∉ f ∧ (∃ t, runFor f.length s = .next t ∧ t.decOut = s.decOut ++ dataEvents part) ∧
      runFor (f.length + 1) s = .next
        { s with moves := more,
                 decOut := s.decOut ++ dataEvents part ++ [.frameEnd (.malformedFrame .noTerminator)] }) ∧
    (f = [] → part = [] ∧ runFor 1 s = .next { s with moves := more })

/-- R110: round trip with bounded padding, for the functions and for the machines: a decoder fed the encoder's frame emits
the message, k zeros and `END(OK)`. -/
def Obligations.RoundTripWithBoundedPadding : Prop :=
  ∀ b : List Byte, ∃ k ≤ 6, decodeFrame (encodeMessage b) = .ok (b ++ zeros k) [] ∧
    ∀ (s : State) (more : List Move), s.dec = DecState.reset → s.moves = decPuts (encodeMessage b) ++ more →
      runFor (encodeMessage b).length s = .next
        { s with moves := more, decOut := s.decOut ++ okEvents (b ++ zeros k) }

/-- R111: a frame's only zero byte is its last. -/
def Obligations.FrameHasOneZeroAtTheEnd : Prop :=
  ∀ b : List Byte, ∃ body, encodeMessage b = body ++ [0x00#8] ∧ 0x00#8 ∉ body

/-- R112: the overhead is at most ceil(n / 134) + 1, and exactly that for a message without zeros. -/
def Obligations.OverheadBound : Prop :=
  ∀ b : List Byte, (encodeMessage b).length ≤ b.length + ((b.length + 133) / 134 + 1) ∧
    (0x00#8 ∉ b → (encodeMessage b).length = b.length + ((b.length + 133) / 134 + 1)) ∧
    encodeMessage (zeros 7) = [0x7F#8, 0x00#8]

/-- R113: the empty message. -/
def Obligations.EmptyMessage : Prop :=
  encodeMessage [] = [0x00#8] ∧ decodeFrame [0x00#8] = .ok [] []

/-- R114: the exact padding, by the encoder's state when `END` arrives and by the last case `chunks` reaches. -/
def Obligations.ExactPadding : Prop :=
  ∀ (b : List Byte) (s : State), s.enc = EncState.reset → s.moves = encPuts b →
    decodeFrame (encodeMessage b) = .ok (b ++ zeros (padding b)) [] ∧
    ∃ t, runFor b.length s = .next t ∧
      padding b = (if t.enc.run = 0 then 0 else if t.enc.run ≤ 6 then 7 - t.enc.run else 1)

/-- R115: frame length. -/
def Obligations.FrameLength : Prop :=
  ∀ b : List Byte, (encodeMessage b).length + b.count 0x00#8 = b.length + (chunksOf b).length + 1

/-- R53, R54, R70: the decoder accepts exactly the frames of the grammar, and a frame means the concatenation of what its
chunks stand for. -/
def Obligations.DecodeAcceptsExactlyTheGrammar : Prop :=
  ∀ f out : List Byte, decodeFrame f = .ok out [] ↔
    ∃ cs, chunksWf cs = true ∧ f = frameBytes cs ∧ out = chunksDecoded cs

/-- R116, R69: every well-formed frame decodes, the encoder inverts the decoder on it, and different frames have different
outputs. -/
def Obligations.EncodeInvertsDecode : Prop :=
  (∀ f, IsFrame f → ∃ out, decodeFrame f = .ok out [] ∧ encodeMessage out = f) ∧
  (∀ f f' out, IsFrame f → IsFrame f' → decodeFrame f = .ok out [] → decodeFrame f' = .ok out [] → f = f')

/-- R117: a message has exactly one well-formed frame that decodes to it with at most 6 zeros more. -/
def Obligations.FrameOfAMessageIsUnique : Prop :=
  ∀ b f : List Byte, (IsFrame f ∧ ∃ k ≤ 6, decodeFrame f = .ok (b ++ zeros k) []) ↔ f = encodeMessage b

/-- R119: a decoder fed an encoder's stream reports the messages one by one, each with its own padding; `decode` stops at
the first terminator and leaves the rest untouched. -/
def Obligations.StreamsOfFrames : Prop :=
  (∀ b g, decodeFrame (encodeMessage b ++ g) = .ok (b ++ zeros (padding b)) g) ∧
  ∀ (msgs : List (List Byte)) (s : State) (more : List Move),
    s.dec = DecState.reset → s.moves = decPuts (msgs.flatMap encodeMessage) ++ more →
    runFor (msgs.flatMap encodeMessage).length s = .next
      { s with moves := more, decOut := s.decOut ++ msgs.flatMap (fun b => okEvents (b ++ zeros (padding b))) }

/-- R120: `b` and `b` followed by up to k(`b`) zeros, k the padding of R114, share a frame; messages that share a frame differ
only by trailing zeros. Not an equivalence: `[]` and `[00]` differ by a trailing zero, and their frames differ. -/
def Obligations.WhatIsLost : Prop :=
  (∀ b j, j ≤ padding b → encodeMessage (b ++ zeros j) = encodeMessage b) ∧
  (∀ b b', encodeMessage b = encodeMessage b' → ∃ j j', b ++ zeros j = b' ++ zeros j')

/-- R122: `decode` classifies every sequence by its first zero byte: none, `NO_TERMINATOR`; in a code position, `Ok`; in a
literal position, `TRUNCATED`. Nothing after that zero influences the verdict or the output. The position is where the decoder
machine stands after the bytes before it. -/
def Obligations.DecodeClassifiesEverySequence : Prop :=
  ∀ (p : List Byte) (s : State), 0x00#8 ∉ p → s.dec = DecState.reset → s.moves = decPuts p →
    (∃ part, decodeFrame p = .malformed .noTerminator part) ∧
    ∃ t, runFor p.length s = .next t ∧
      (t.dec.ctl.position = .code → ∃ out, ∀ g, decodeFrame (p ++ 0x00#8 :: g) = .ok out g) ∧
      (t.dec.ctl.position = .literal → ∃ out, ∀ g, decodeFrame (p ++ 0x00#8 :: g) = .malformed .truncated out)

/-- R123: a cut inside a chunk is rejected, before a zero as `TRUNCATED`, at the end of the input as `NO_TERMINATOR`; a cut
between chunks, followed by a zero, is not detected. -/
def Obligations.TruncatedFramesAreRejected : Prop :=
  ∀ (cs : List Chunk) (c : Byte) (x g : List Byte), chunksWf cs = true → c ≠ 0x00#8 →
    x.length < literalCount (decodeCode c) → 0x00#8 ∉ x →
    (∃ part, decodeFrame (chunksBytes cs ++ c :: (x ++ 0x00#8 :: g)) = .malformed .truncated part) ∧
    (∃ part, decodeFrame (chunksBytes cs ++ c :: x) = .malformed .noTerminator part) ∧
    decodeFrame (chunksBytes cs ++ 0x00#8 :: g) = .ok (chunksDecoded cs) g

/-- R124: the decoded outputs of well-formed frames are the concatenations of blocks, equally the messages whose padding is
0, equally those after which the encoder is in its reset state; such a message comes back exactly. -/
def Obligations.DecoderRange : Prop :=
  ∀ (o : List Byte) (s : State), s.enc = EncState.reset → s.moves = encPuts o →
    ((∃ f, IsFrame f ∧ decodeFrame f = .ok o []) ↔ ∃ ws : List (List Byte), (∀ w ∈ ws, IsBlock w) ∧ o = ws.flatten) ∧
    ((∃ f, IsFrame f ∧ decodeFrame f = .ok o []) ↔ padding o = 0) ∧
    (padding o = 0 ↔ ∃ t, runFor o.length s = .next t ∧ t.enc = EncState.reset) ∧
    (padding o = 0 → decodeFrame (encodeMessage o) = .ok o [])

/-- R157 with R146, the model's reset being decision D15: after the `PUT`s of message b the encoder (state `u`) has emitted the
whole chunks `cs`, which stand for all of b but the last `enc.run` bytes. Everything emitted goes out (at least as many transfers
as bytes), the encoder is reset, and message b' is sent. The line then carries `cs` and directly after it, with no terminator
between, the frame of b': the bytes of b still held at the reset are lost, and a decoder reads the two as one frame. -/
def Obligations.ResetInMidMessageJoinsTwoFrames : Prop :=
  ∀ (b b' : List Byte) (n : Nat) (s : State),
    s.enc = EncState.reset → s.encOut = [] → (encodeMessage b).length ≤ n →
    s.moves = encPuts b ++ (List.replicate n .encOut ++ .rst .encoder 1#1 :: encMessage b') →
    ∃ u t cs, runFor b.length s = .next u ∧ u.encOut = chunksBytes cs ∧ chunksWf cs = true ∧
      u.enc.run ≤ 133 ∧ u.enc.run ≤ b.length ∧ chunksDecoded cs = b.take (b.length - u.enc.run) ∧
      runFor (b.length + (n + (1 + (b'.length + 1)))) s = .next t ∧ t.enc = EncState.reset ∧
      t.encTrace = s.encSent ++ (chunksBytes cs ++ encodeMessage b') ∧
      decodeFrame (chunksBytes cs ++ encodeMessage b') = .ok (chunksDecoded cs ++ b' ++ zeros (padding b')) []
end

