-- ==== Sys2Proof/Laws/Codec.lean ====
section
/-! SUPPORT. The pure functions without their fuel: `chunksOf` and `decodeFrame` by the cases of 40_encoder.md R84 and
41_decoder.md R104. -/

namespace Sys2Proof.Machine

/-- A maximal run is no longer than the message. -/
theorem runLen_le (b : List Byte) : runLen b ≤ b.length :=
  le_trans (Nat.min_le_left _ _) (List.IsPrefix.length_le (List.takeWhile_prefix _))

/-- A maximal run is at most 134 bytes. -/
theorem runLen_le_long (b : List Byte) : runLen b ≤ Config.runLong := Nat.min_le_right _ _

/-- Fuel at or above the length of the message is enough for `chunkList`. -/
theorem chunkList_fuel (n k : Nat) (b : List Byte) (hn : b.length ≤ n) (hk : b.length ≤ k) :
    chunkList n b = chunkList k b := by
  induction n generalizing k b with
  | zero =>
    have hb : b = [] := List.length_eq_zero_iff.mp (by omega)
    subst hb
    cases k <;> simp [chunkList]
  | succ n ih =>
    cases k with
    | zero =>
      have hb : b = [] := List.length_eq_zero_iff.mp (by omega)
      subst hb
      simp [chunkList]
    | succ k =>
      have hd (j : Nat) (hj : 0 < j) (h0 : b ≠ []) : chunkList n (b.drop j) = chunkList k (b.drop j) := by
        have := List.length_pos_of_ne_nil h0
        exact ih k _ (by simp; omega) (by simp; omega)
      simp only [chunkList]
      split
      · rfl
      next h0 =>
        split
        · rfl
        · split
          · rw [hd _ (by decide) h0]
          · split
            · rw [hd _ (by decide) h0]
            · split
              · rw [hd _ (by omega) h0]
              · rfl

/-- Fuel at or above the length of the message is enough for `paddingList`. -/
theorem paddingList_fuel (n k : Nat) (b : List Byte) (hn : b.length ≤ n) (hk : b.length ≤ k) :
    paddingList n b = paddingList k b := by
  induction n generalizing k b with
  | zero =>
    have hb : b = [] := List.length_eq_zero_iff.mp (by omega)
    subst hb
    cases k <;> simp [paddingList]
  | succ n ih =>
    cases k with
    | zero =>
      have hb : b = [] := List.length_eq_zero_iff.mp (by omega)
      subst hb
      simp [paddingList]
    | succ k =>
      have hd (j : Nat) (hj : 0 < j) (h0 : b ≠ []) : paddingList n (b.drop j) = paddingList k (b.drop j) := by
        have := List.length_pos_of_ne_nil h0
        exact ih k _ (by simp; omega) (by simp; omega)
      simp only [paddingList]
      split
      · rfl
      next h0 =>
        split
        · rfl
        · split
          · rw [hd _ (by decide) h0]
          · split
            · rw [hd _ (by decide) h0]
            · split
              · rw [hd _ (by omega) h0]
              · rfl

/-- R84: the chunks of a message, by cases on the message. -/
theorem chunksOf_cases (b : List Byte) :
    chunksOf b =
      if b = [] then []
      else if b.length < Config.window then [padChunk b]
      else if 0x00#8 ∈ b.take Config.window then
        .mask (maskOf (b.take Config.window)) (nonZeros (b.take Config.window)) :: chunksOf (b.drop Config.window)
      else if runLen b = Config.runLong then .run134 (b.take Config.runLong) :: chunksOf (b.drop Config.runLong)
      else if runLen b < b.length then .run (b.take (runLen b)) :: chunksOf (b.drop (runLen b + 1))
      else [.run (b.take (runLen b))] := by
  have h := chunkList_fuel b.length (b.length + 1) b (le_refl _) (by omega)
  have hd (j : Nat) : chunkList b.length (b.drop j) = chunksOf (b.drop j) :=
    chunkList_fuel _ _ _ (by simp) (le_refl _)
  rw [chunksOf, h]
  simp only [chunkList, hd]

/-- R114: the padding of a message, by cases on the message. -/
theorem padding_cases (b : List Byte) :
    padding b =
      if b = [] then 0
      else if b.length < Config.window then Config.window - b.length
      else if 0x00#8 ∈ b.take Config.window then padding (b.drop Config.window)
      else if runLen b = Config.runLong then padding (b.drop Config.runLong)
      else if runLen b < b.length then padding (b.drop (runLen b + 1))
      else 1 := by
  have h := paddingList_fuel b.length (b.length + 1) b (le_refl _) (by omega)
  have hd (j : Nat) : paddingList b.length (b.drop j) = padding (b.drop j) :=
    paddingList_fuel _ _ _ (by simp) (le_refl _)
  rw [padding, h]
  simp only [paddingList, hd]

/-- Copying literals that are there and not zero. -/
theorem copyLits_append (x f acc : List Byte) (hx : 0x00#8 ∉ x) :
    copyLits x.length (x ++ f) acc = .more f (acc ++ x) := by
  induction x generalizing acc with
  | nil => simp [copyLits]
  | cons a x ih =>
    have ha : a ≠ 0x00#8 := fun h => hx (by simp [h])
    have hx' : 0x00#8 ∉ x := fun h => hx (by simp [h])
    simp [copyLits, ha, ih _ hx']

/-- Literals that are copied leave a shorter or equal frame. -/
theorem copyLits_le (j : Nat) (f acc f' acc' : List Byte) (h : copyLits j f acc = .more f' acc') :
    f'.length ≤ f.length := by
  induction j generalizing f acc with
  | zero => simp only [copyLits, Copied.more.injEq] at h; rw [h.1]
  | succ j ih =>
    cases f with
    | nil => simp [copyLits] at h
    | cons x f =>
      simp only [copyLits] at h
      split at h
      · cases h
      · exact le_trans (ih _ _ h) (by simp)

/-- A window that is copied leaves a shorter or equal frame. -/
theorem copyWindow_le (m : Bits7) (left : Nat) (f acc f' acc' : List Byte)
    (h : copyWindow m left f acc = .more f' acc') : f'.length ≤ f.length := by
  induction left generalizing f acc with
  | zero => simp only [copyWindow, Copied.more.injEq] at h; rw [h.1]
  | succ left ih =>
    simp only [copyWindow] at h
    split at h
    · exact ih _ _ h
    · split at h
      · cases h
      next hc => exact le_trans (ih _ _ h) (copyLits_le _ _ _ _ _ hc)

/-- A chunk that is copied leaves a shorter or equal frame. -/
theorem copyChunk_le (c : Byte) (f acc f' acc' : List Byte) (h : copyChunk c f acc = .more f' acc') :
    f'.length ≤ f.length := by
  simp only [copyChunk] at h
  split at h
  · exact copyLits_le _ _ _ _ _ h
  · split at h
    · revert h
      cases hc : copyLits (runLength (c.setWidth 7)) f acc with
      | more f₁ a₁ =>
        intro h
        simp only [Copied.thenZero, Copied.more.injEq] at h
        exact h.1 ▸ copyLits_le _ _ _ _ _ hc
      | fails cause a => intro h; simp [Copied.thenZero] at h
    · exact copyWindow_le _ _ _ _ _ _ h

/-- Fuel above the length of the frame is enough for `decodeFrom`. -/
theorem decodeFrom_fuel (n k : Nat) (f acc : List Byte) (hn : f.length < n) (hk : f.length < k) :
    decodeFrom n f acc = decodeFrom k f acc := by
  induction n generalizing k f acc with
  | zero => omega
  | succ n ih =>
    cases k with
    | zero => omega
    | succ k =>
      cases f with
      | nil => simp [decodeFrom]
      | cons c f =>
        simp only [List.length_cons] at hn hk
        simp only [decodeFrom]
        split
        · rfl
        · cases hc : copyChunk c f acc with
          | more f' a =>
            have := copyChunk_le _ _ _ _ _ hc
            exact ih k f' a (by omega) (by omega)
          | fails cause a => rfl

/-- `go(f, acc)` of R104. -/
def goFrame (f acc : List Byte) : DecodeResult := decodeFrom (f.length + 1) f acc

/-- R104: `decode(f) = go(f, [])`. -/
theorem decodeFrame_eq_goFrame (f : List Byte) : decodeFrame f = goFrame f [] := rfl

/-- R104: the input is over. -/
@[simp] theorem goFrame_nil (acc : List Byte) : goFrame [] acc = .malformed .noTerminator acc := rfl

/-- R104: a byte in a code position. -/
theorem goFrame_cons (c : Byte) (f acc : List Byte) :
    goFrame (c :: f) acc =
      if c = 0x00#8 then .ok acc f
      else match copyChunk c f acc with
        | .more f' a => goFrame f' a
        | .fails cause a => .malformed cause a := by
  simp only [goFrame, List.length_cons]
  rw [decodeFrom]
  split
  · rfl
  · cases hc : copyChunk c f acc with
    | more f' a =>
      have := copyChunk_le _ _ _ _ _ hc
      exact decodeFrom_fuel _ _ _ _ (by omega) (by omega)
    | fails cause a => rfl

end Sys2Proof.Machine
end

