-- ==== Sys2Proof/Laws/Constants.lean ====
section
/-! SUPPORT. The constants of the format as numerals, for simp and omega. -/

namespace Sys2Proof.Config

@[simp] theorem window_eq : window = 7 := rfl
@[simp] theorem runMin_eq : runMin = 7 := rfl
@[simp] theorem runMax_eq : runMax = 133 := rfl
@[simp] theorem runLong_eq : runLong = 134 := rfl
@[simp] theorem padMax_eq : padMax = 6 := rfl
@[simp] theorem term_eq : term = 0x00#8 := rfl

end Sys2Proof.Config
end

