-- ==== Sys2Proof/Laws/State.lean ====
section
/-! SUPPORT. One lemma per field of `State` and update, so that no later proof unfolds a record update; and what the reset
states hold. -/

namespace Sys2Proof.Machine

variable (s : State) (e : EncState) (d : DecState) (c : Ctl) (bs : List Byte) (es : List DecEvent)

@[simp] theorem State.emitBytes_enc : (s.emitBytes bs).enc = s.enc := rfl
@[simp] theorem State.emitBytes_encOut : (s.emitBytes bs).encOut = s.encOut ++ bs := rfl
@[simp] theorem State.emitBytes_dec : (s.emitBytes bs).dec = s.dec := rfl
@[simp] theorem State.emitBytes_decOut : (s.emitBytes bs).decOut = s.decOut := rfl
@[simp] theorem State.emitBytes_encSent : (s.emitBytes bs).encSent = s.encSent := rfl
@[simp] theorem State.emitBytes_decSent : (s.emitBytes bs).decSent = s.decSent := rfl
@[simp] theorem State.emitBytes_moves : (s.emitBytes bs).moves = s.moves := rfl

@[simp] theorem State.emitEvents_enc : (s.emitEvents es).enc = s.enc := rfl
@[simp] theorem State.emitEvents_encOut : (s.emitEvents es).encOut = s.encOut := rfl
@[simp] theorem State.emitEvents_dec : (s.emitEvents es).dec = s.dec := rfl
@[simp] theorem State.emitEvents_decOut : (s.emitEvents es).decOut = s.decOut ++ es := rfl
@[simp] theorem State.emitEvents_encSent : (s.emitEvents es).encSent = s.encSent := rfl
@[simp] theorem State.emitEvents_decSent : (s.emitEvents es).decSent = s.decSent := rfl
@[simp] theorem State.emitEvents_moves : (s.emitEvents es).moves = s.moves := rfl

@[simp] theorem State.setEnc_enc : (s.setEnc e).enc = e := rfl
@[simp] theorem State.setEnc_encOut : (s.setEnc e).encOut = s.encOut := rfl
@[simp] theorem State.setEnc_dec : (s.setEnc e).dec = s.dec := rfl
@[simp] theorem State.setEnc_decOut : (s.setEnc e).decOut = s.decOut := rfl
@[simp] theorem State.setEnc_encSent : (s.setEnc e).encSent = s.encSent := rfl
@[simp] theorem State.setEnc_decSent : (s.setEnc e).decSent = s.decSent := rfl
@[simp] theorem State.setEnc_moves : (s.setEnc e).moves = s.moves := rfl

@[simp] theorem State.setDec_enc : (s.setDec d).enc = s.enc := rfl
@[simp] theorem State.setDec_encOut : (s.setDec d).encOut = s.encOut := rfl
@[simp] theorem State.setDec_dec : (s.setDec d).dec = d := rfl
@[simp] theorem State.setDec_decOut : (s.setDec d).decOut = s.decOut := rfl
@[simp] theorem State.setDec_encSent : (s.setDec d).encSent = s.encSent := rfl
@[simp] theorem State.setDec_decSent : (s.setDec d).decSent = s.decSent := rfl
@[simp] theorem State.setDec_moves : (s.setDec d).moves = s.moves := rfl

@[simp] theorem State.setCtl_enc : (s.setCtl c).enc = s.enc := rfl
@[simp] theorem State.setCtl_encOut : (s.setCtl c).encOut = s.encOut := rfl
@[simp] theorem State.setCtl_ctl : (s.setCtl c).dec.ctl = c := rfl
@[simp] theorem State.setCtl_inframe : (s.setCtl c).dec.inframe = s.dec.inframe := rfl
@[simp] theorem State.setCtl_decOut : (s.setCtl c).decOut = s.decOut := rfl
@[simp] theorem State.setCtl_encSent : (s.setCtl c).encSent = s.encSent := rfl
@[simp] theorem State.setCtl_decSent : (s.setCtl c).decSent = s.decSent := rfl
@[simp] theorem State.setCtl_moves : (s.setCtl c).moves = s.moves := rfl

@[simp] theorem EncState.reset_run : EncState.reset.run = 0 := rfl
@[simp] theorem EncState.reset_zeros : EncState.reset.zeros = 0#7 := rfl
@[simp] theorem EncState.reset_lits : EncState.reset.lits = [] := rfl
@[simp] theorem DecState.reset_ctl : DecState.reset.ctl = .code := rfl
@[simp] theorem DecState.reset_inframe : DecState.reset.inframe = false := rfl

end Sys2Proof.Machine
end

