-- ==== Sys2Proof/Laws/Ops.lean ====
section
/-! SUPPORT. One lemma per shared operation that says once everything it does. -/

namespace Sys2Proof.Machine

/-- `flush` emits the code byte and the literals and clears the encoder's registers. -/
theorem flush_eq (code : Byte) (s : State) :
    flush code s = { s with enc := EncState.reset, encOut := s.encOut ++ code :: s.enc.lits } := rfl

/-- `raiseMalformed` emits one `END` and puts the decoder at a frame boundary. -/
theorem raiseMalformed_eq (cause : Cause) (s : State) :
    raiseMalformed cause s =
      { s with dec := DecState.reset, decOut := s.decOut ++ [.frameEnd (.malformedFrame cause)] } := rfl

/-- `drain` emits the zeros of the positions passed and settles the mode; `inframe` stays. -/
theorem drain_eq (m : Bits7) (idx : Nat) (s : State) :
    drain m idx s =
      { s with
        dec := ⟨ctlAt m (skipZeros m Config.window idx), s.dec.inframe⟩
        decOut := s.decOut ++ (zeros (skipZeros m Config.window idx - idx)).map .data } := rfl

/-- The loop of `drain` never moves back. -/
theorem le_skipZeros (m : Bits7) (fuel idx : Nat) : idx ≤ skipZeros m fuel idx := by
  induction fuel generalizing idx with
  | zero => exact le_refl _
  | succ fuel ih =>
    simp only [skipZeros]
    split
    · exact le_trans (Nat.le_succ idx) (ih (idx + 1))
    · exact le_refl _

/-- The loop of `drain` stays within the window. -/
theorem skipZeros_le (m : Bits7) (fuel idx : Nat) (h : idx ≤ Config.window) :
    skipZeros m fuel idx ≤ Config.window := by
  induction fuel generalizing idx with
  | zero => exact h
  | succ fuel ih =>
    simp only [skipZeros]
    split
    · exact ih (idx + 1) (by omega)
    · exact h

/-- Every position the loop of `drain` passes has mask bit 1. -/
theorem skipZeros_passed (m : Bits7) (fuel idx j : Nat) (h : idx ≤ j) (hj : j < skipZeros m fuel idx) :
    m.getLsbD j = true := by
  induction fuel generalizing idx with
  | zero => simp only [skipZeros] at hj; omega
  | succ fuel ih =>
    simp only [skipZeros] at hj
    split at hj
    · rcases Nat.eq_or_lt_of_le h with rfl | h
      · simp_all
      · exact ih (idx + 1) h hj
    · omega

/-- With fuel for the rest of the window the loop of `drain` stops at its end or at a mask bit 0. -/
theorem skipZeros_stops (m : Bits7) (fuel idx : Nat) (hf : Config.window ≤ idx + fuel)
    (h : skipZeros m fuel idx < Config.window) : m.getLsbD (skipZeros m fuel idx) = false := by
  induction fuel generalizing idx with
  | zero => simp only [skipZeros] at h; omega
  | succ fuel ih =>
    simp only [skipZeros] at h ⊢
    split
    next hc => simp only [if_pos hc] at h; exact ih (idx + 1) (by omega) h
    next hc =>
      simp only [if_neg hc] at h
      simpa [h] using hc

/-- Where the loop of `drain` stops: the first position at or after `idx` that ends the window or has mask bit 0. -/
theorem skipZeros_eq (m : Bits7) (fuel idx i : Nat) (hf : Config.window ≤ idx + fuel) (hi : idx ≤ i)
    (hw : i ≤ Config.window) (hp : ∀ j, idx ≤ j → j < i → m.getLsbD j = true)
    (hs : i < Config.window → m.getLsbD i = false) : skipZeros m fuel idx = i := by
  rcases Nat.lt_trichotomy (skipZeros m fuel idx) i with h | h | h
  · have h0 := skipZeros_stops m fuel idx hf (by omega)
    simp [hp _ (le_skipZeros m fuel idx) h] at h0
  · exact h
  · have hle := skipZeros_le m fuel idx (by omega)
    have h1 := skipZeros_passed m fuel idx i hi h
    simp [hs (by omega)] at h1

/-- A transfer on the encoder's output port with something pending. -/
theorem acceptEnc_cons (s : State) (b : Byte) (bs : List Byte) (h : s.encOut = b :: bs) :
    acceptEnc s = { s with encOut := bs, encSent := s.encSent ++ [b] } := by
  simp [acceptEnc, h]

/-- No transfer on the encoder's output port with nothing pending. -/
theorem acceptEnc_nil (s : State) (h : s.encOut = []) : acceptEnc s = s := by
  simp [acceptEnc, h]

/-- A transfer on the decoder's output port with something pending. -/
theorem acceptDec_cons (s : State) (e : DecEvent) (es : List DecEvent) (h : s.decOut = e :: es) :
    acceptDec s = { s with decOut := es, decSent := s.decSent ++ [e] } := by
  simp [acceptDec, h]

/-- No transfer on the decoder's output port with nothing pending. -/
theorem acceptDec_nil (s : State) (h : s.decOut = []) : acceptDec s = s := by
  simp [acceptDec, h]

end Sys2Proof.Machine
end

