-- ==== Sys2Proof/Laws/Words.lean ====
section
/-! SUPPORT. The fields of code bytes and port words: what was put in comes out. -/

namespace Sys2Proof

@[simp] theorem maskByte_top (m : Bits7) : (maskByte m).getLsbD 7 = false := by
  simp [maskByte]

@[simp] theorem maskByte_getElem_top (m : Bits7) : (maskByte m)[7] = false := by
  simp [maskByte]

@[simp] theorem runByte_getElem_top (n : Bits7) : (runByte n)[7] = true := by
  simp [runByte]

@[simp] theorem maskByte_low (m : Bits7) : (maskByte m).setWidth 7 = m := by
  simp [maskByte]

@[simp] theorem runByte_top (n : Bits7) : (runByte n).getLsbD 7 = true := by
  simp [runByte]

@[simp] theorem runByte_low (n : Bits7) : (runByte n).setWidth 7 = n := by
  revert n; decide

theorem maskByte_eq_zero_iff (m : Bits7) : maskByte m = 0x00#8 ↔ m = 0#7 := by
  revert m; decide

theorem maskByte_ne_ff (m : Bits7) : maskByte m ≠ 0xFF#8 := by
  revert m; decide

theorem runByte_ne_zero (n : Bits7) : runByte n ≠ 0x00#8 := by
  revert n; decide

theorem runByte_eq_ff_iff (n : Bits7) : runByte n = 0xFF#8 ↔ n = 127#7 := by
  revert n; decide

@[simp] theorem putBits_marker (b : Byte) : markerOf (putBits b) = false := by
  simp [markerOf, putBits]

@[simp] theorem putBits_data (b : Byte) : dataOf (putBits b) = b := by
  simp [dataOf, putBits]

@[simp] theorem markerBits_marker : markerOf markerBits = true := by decide

end Sys2Proof
end

