-- ==== Sys2Proof/Laws/Step.lean ====
section
/-! SUPPORT. Steps and runs: each kind of move, and a run taken apart at its first step. -/

namespace Sys2Proof.Machine

/-- `PUT(b)` on enc_in is `ENC.PUT(b)`. -/
theorem step_encPut (s : State) (b : Byte) (rest : List Move) (h : s.moves = .encIn (putBits b) :: rest) :
    step s = exec (.encPut b) { s with moves := rest } := by
  simp [step, h, runMove, runWord, decode]

/-- `END` on enc_in is `ENC.END`. -/
theorem step_encEnd (s : State) (rest : List Move) (h : s.moves = .encIn markerBits :: rest) :
    step s = exec .encEnd { s with moves := rest } := by
  simp [step, h, runMove, runWord, decode]

/-- `PUT(c)` on dec_in is `DEC.PUT(c)`. -/
theorem step_decPut (s : State) (c : Byte) (rest : List Move) (h : s.moves = .decIn (putBits c) :: rest) :
    step s = exec (.decPut c) { s with moves := rest } := by
  simp [step, h, runMove, runWord, decode]

/-- `EOI` on dec_in is `DEC.EOI`. -/
theorem step_decEoi (s : State) (rest : List Move) (h : s.moves = eoiMove :: rest) :
    step s = exec .decEoi { s with moves := rest } := by
  simp [step, h, eoiMove, runMove, runWord, decode]

/-- `rst` = 1 is `RESET` of the block. -/
theorem step_reset (s : State) (blk : Block) (rest : List Move) (h : s.moves = .rst blk 1#1 :: rest) :
    step s = exec (.reset blk) { s with moves := rest } := by
  simp [step, h, runMove, runWord, decode]

/-- No step is a run of none. -/
@[simp] theorem runFor_zero (s : State) : runFor 0 s = .next s := rfl

/-- A run of any machine begins with its first step. -/
theorem core_run_succ (M : Host.Core) (k : Nat) (s t : M.State) (h : M.step s = .next t) :
    M.run (k + 1) s = M.run k t := by
  simp [Host.Core.run, h]

/-- A run of any machine whose first step is refused is refused. -/
theorem core_run_refused (M : Host.Core) (k : Nat) (s : M.State) (r : M.Refusal) (h : M.step s = .refused r) :
    M.run (k + 1) s = .refused r := by
  simp [Host.Core.run, h]

/-- A run begins with its first step. -/
theorem runFor_succ (k : Nat) (s t : State) (h : step s = .next t) : runFor (k + 1) s = runFor k t :=
  core_run_succ Sys2Proof.core k s t h

/-- A run whose first step is refused is refused. -/
theorem runFor_succ_refused (k : Nat) (s : State) (r : Refusal) (h : step s = .refused r) :
    runFor (k + 1) s = .refused r :=
  core_run_refused Sys2Proof.core k s r h

/-- Runs compose. -/
theorem runFor_add (j k : Nat) (s t : State) (h : runFor j s = .next t) : runFor (j + k) s = runFor k t := by
  induction j generalizing s with
  | zero => cases h; simp
  | succ j ih =>
    cases hs : step s with
    | next u =>
      rw [runFor_succ j s u hs] at h
      rw [Nat.add_right_comm, runFor_succ (j + k) s u hs, ih u h]
    | fault r => nomatch r
    | refused r => rw [runFor_succ_refused j s r hs] at h; cases h

end Sys2Proof.Machine
end

