-- ==== Sys2Proof/Laws/Exec.lean ====
section
/-! SUPPORT. What one instruction can do to a block, said once: the readings of a frame byte, and the shape of a step. -/

namespace Sys2Proof.Machine

/-- Whatever a frame byte is read as, the decoder's new registers and its output events depend on its registers and the
byte alone, and nothing else of the state changes. -/
theorem readByte_shape (c : Byte) (s : State) :
    ∃ d out, (∀ s' : State, s'.dec = s.dec → readByte c s' = { s' with dec := d, decOut := s'.decOut ++ out }) := by
  obtain ⟨enc, encOut, ⟨ctl, inframe⟩, decOut, encSent, decSent, moves⟩ := s
  cases ctl with
  | code =>
    by_cases h0 : c = 0x00#8
    · refine ⟨DecState.reset, [.frameEnd .ok], fun s' h => ?_⟩
      simp [readByte, h, readCode, h0, endFrame, State.emitEvents, State.setDec]
    · by_cases h1 : c = 0xFF#8
      · refine ⟨⟨.lit Config.runLong false, true⟩, [], fun s' h => ?_⟩
        simp [readByte, h, readCode, h1, startLit, State.setDec]
      · by_cases h7 : c.getLsbD 7 = true
        · refine ⟨⟨.lit (runLength (c.setWidth 7)) true, true⟩, [], fun s' h => ?_⟩
          rw [readByte, h]
          simp only [readCode, h0, h1, h7, if_true, if_false, startLit, State.setDec, List.append_nil]
        · refine ⟨⟨ctlAt (c.setWidth 7) (skipZeros (c.setWidth 7) Config.window 0), true⟩,
            (zeros (skipZeros (c.setWidth 7) Config.window 0 - 0)).map .data, fun s' h => ?_⟩
          rw [readByte, h]
          simp only [readCode, h0, h1, h7, if_false, startMask, drain_eq, State.setDec]
          rfl
  | lit cnt az =>
    by_cases h0 : c = 0x00#8
    · refine ⟨DecState.reset, [.frameEnd (.malformedFrame .truncated)], fun s' h => ?_⟩
      simp [readByte, h, readRunLiteral, h0, raiseMalformed_eq]
    · by_cases hc : cnt - 1 = 0
      · refine ⟨⟨.code, inframe⟩, .data c :: if az then [.data 0x00#8] else [], fun s' h => ?_⟩
        simp [readByte, h, readRunLiteral, h0, takeRunLiteral, hc, State.setCtl, State.setDec, State.emitEvents]
      · refine ⟨⟨.lit (cnt - 1) az, inframe⟩, [.data c], fun s' h => ?_⟩
        simp [readByte, h, readRunLiteral, h0, takeRunLiteral, hc, State.setCtl, State.setDec, State.emitEvents]
  | mask m idx =>
    by_cases h0 : c = 0x00#8
    · refine ⟨DecState.reset, [.frameEnd (.malformedFrame .truncated)], fun s' h => ?_⟩
      simp [readByte, h, readMaskLiteral, h0, raiseMalformed_eq]
    · refine ⟨⟨ctlAt m (skipZeros m Config.window (idx + 1)), inframe⟩,
        .data c :: (zeros (skipZeros m Config.window (idx + 1) - (idx + 1))).map .data, fun s' h => ?_⟩
      simp [readByte, h, readMaskLiteral, h0, takeMaskLiteral, drain_eq, State.emitEvents]

/-- A step either makes no move or makes the first one. -/
theorem step_cases (s t : State) (h : step s = .next t) :
    (s.moves = [] ∧ t = s) ∨ ∃ mv rest, s.moves = mv :: rest ∧ runMove mv { s with moves := rest } = .next t := by
  cases hm : s.moves with
  | nil => simp [step, hm] at h; exact .inl ⟨rfl, h.symm⟩
  | cons mv rest => simp only [step, hm] at h; exact .inr ⟨mv, rest, rfl, h⟩

/-- A move is an instruction, or the rest of a reset line, or an output transfer. -/
theorem runMove_cases (mv : Move) (s t : State) (h : runMove mv s = .next t) :
    (∃ w i, mv.word = some w ∧ decode w = .ok i ∧ exec i s = .next t) ∨ (∃ blk, mv = .rst blk 0#1 ∧ t = s) ∨
    (mv = .encOut ∧ t = acceptEnc s) ∨ (mv = .decOut ∧ t = acceptDec s) := by
  cases mv with
  | encIn w => exact .inl ⟨.encIn w, _, rfl, rfl, h⟩
  | decIn w => exact .inl ⟨.decIn w, _, rfl, rfl, h⟩
  | rst blk level =>
    by_cases hl : level = 1#1
    · subst hl
      exact .inl ⟨.rst blk 1#1, .reset blk, rfl, by simp [decode], by simpa [runMove, runWord, decode] using h⟩
    · have h0 (l : BitVec 1) : l ≠ 1#1 → l = 0#1 := by revert l; decide
      obtain rfl := h0 level hl
      simp [runMove, runWord, decode] at h
      exact .inr (.inl ⟨blk, rfl, h.symm⟩)
  | encOut => simp [runMove] at h; exact .inr (.inr (.inl ⟨rfl, h.symm⟩))
  | decOut => simp [runMove] at h; exact .inr (.inr (.inr ⟨rfl, h.symm⟩))

end Sys2Proof.Machine
end

