-- ==== Sys2Proof/Laws/PerInstr.lean ====
section
/-! SUPPORT. A statement about every instruction as syntax, one lemma per constructor: the word that encodes a well-formed
instruction matches the instruction's row of spec/opcode_table.json. -/

namespace Sys2Proof.Laws.RowMatch

/-- The bits the row's mask selects are the row's match. -/
def Statement (i : Instr) : Prop := i.WellFormed → (encode i).bits &&& i.row.mask = i.row.value

theorem frameEnd : Statement .frameEnd := fun _ => rfl

theorem mask (m : Bits7) : Statement (.mask m) := by
  intro _
  change (maskByte m).toNat &&& 0x80 = 0x00
  revert m; decide

theorem run (n : Bits7) : Statement (.run n) := by
  intro _
  change (runByte n).toNat &&& 0x80 = 0x80
  revert n; decide

theorem run134 : Statement .run134 := fun _ => rfl

theorem literal (v : Byte) : Statement (.literal v) := by
  intro _
  change v.toNat &&& 0 = 0
  simp

theorem zeroInLiteral : Statement .zeroInLiteral := fun _ => rfl

theorem encPut (b : Byte) : Statement (.encPut b) := by
  intro _
  change (putBits b).toNat &&& 0x100 = 0
  revert b; decide

theorem encEnd : Statement .encEnd := fun _ => rfl

theorem decPut (c : Byte) : Statement (.decPut c) := by
  intro _
  change (putBits c).toNat &&& 0x100 = 0
  revert c; decide

theorem decEoi : Statement .decEoi := fun _ => rfl

theorem reset (blk : Block) : Statement (.reset blk) := by
  intro _
  cases blk <;> decide

end Sys2Proof.Laws.RowMatch
end

