-- ==== Sys2Proof/Tests/Slice0.lean ====
section
/-! SUPPORT. Small tests. Expected results are from 95_test_vectors.md (rows named in the comments) and from the encodings of
30_encoding.md and 10_state.md R17. Then, for each statement with hypotheses, a witness that meets them. -/

namespace Sys2Proof.Tests
open Sys2Proof Sys2Proof.Machine

/-! ## Well-formedness smoke: each check refuses an ill-formed term and accepts its neighbour -/

theorem test_mask_zero_ill_formed : (Instr.mask 0#7).wellFormed = false := by decide
theorem test_mask_one_well_formed : (Instr.mask 1#7).wellFormed = true := by decide
theorem test_run_127_ill_formed : (Instr.run 127#7).wellFormed = false := by decide
theorem test_run_126_well_formed : (Instr.run 126#7).wellFormed = true := by decide
theorem test_literal_zero_ill_formed : (Instr.literal 0#8).wellFormed = false := by decide
theorem test_literal_ff_well_formed : (Instr.literal 0xFF#8).wellFormed = true := by decide

/-! ## Decoding: words written out from the encodings -/

theorem test_decode_end : decode (.code 0b00000000#8) = .ok .frameEnd := by decide
theorem test_decode_mask_1A : decode (.code 0b00011010#8) = .ok (.mask 0b0011010#7) := by decide
theorem test_decode_mask_7F : decode (.code 0b01111111#8) = .ok (.mask 0b1111111#7) := by decide
theorem test_decode_run_80 : decode (.code 0b10000000#8) = .ok (.run 0#7) := by decide
theorem test_decode_run_FE : decode (.code 0b11111110#8) = .ok (.run 126#7) := by decide
theorem test_decode_run134 : decode (.code 0b11111111#8) = .ok .run134 := by decide
theorem test_decode_literal : decode (.literal 0b11111111#8) = .ok (.literal 0xFF#8) := by decide
theorem test_decode_zero_in_literal : decode (.literal 0b00000000#8) = .ok .zeroInLiteral := by decide
theorem test_decode_enc_put : decode (.encIn 0b001011010#9) = .ok (.encPut 0x5A#8) := by decide
theorem test_decode_enc_end_ignores_data : decode (.encIn 0b111111111#9) = .ok .encEnd := by decide
theorem test_decode_dec_put : decode (.decIn 0b011111111#9) = .ok (.decPut 0xFF#8) := by decide
theorem test_decode_dec_eoi_ignores_data : decode (.decIn 0b100000001#9) = .ok .decEoi := by decide
theorem test_decode_reset : decode (.rst .encoder 0b1#1) = .ok (.reset .encoder) := by decide
theorem test_decode_reset_low : decode (.rst .encoder 0b0#1) = .error .resetNotAsserted := by decide
theorem test_table_word_code : decodeTableWord 8 0x82 = some (.run 2#7) := by decide
theorem test_table_word_enc : decodeTableWord 16 0x100 = some .encEnd := by decide
theorem test_table_word_too_wide : decodeTableWord 16 0x200 = none := by decide

/-! ## One step on small states -/

/-- The next state meets the predicate. -/
def nextSat (o : Host.Outcome State Fault Refusal) (p : State → Bool) : Bool :=
  match o with
  | .next t => p t
  | .fault _ => false
  | .refused _ => false

/-- The reset state with the encoder's registers set. -/
def encAt (run : Nat) (zs : Bits7) (lits : List Byte) : State := { State.reset with enc := ⟨run, zs, lits⟩ }

/-- The reset state with the decoder's registers set. -/
def decAt (c : Ctl) (inframe : Bool) : State := { State.reset with dec := ⟨c, inframe⟩ }

/-- The reset state with moves planned. -/
def planned (ms : List Move) : State := { State.reset with moves := ms }

/-- The bytes 1, 2, ..., n. -/
def upTo (n : Nat) : List Byte := (List.range n).map (fun i => BitVec.ofNat 8 (i + 1))

/-- The encoder's registers and its output after an instruction. -/
def encResult (o : Host.Outcome State Fault Refusal) (e : EncState) (out : List Byte) : Bool :=
  nextSat o (fun t => t.enc == e && t.encOut == out)

/-- The decoder's registers and its output after an instruction. -/
def decResult (o : Host.Outcome State Fault Refusal) (c : Ctl) (inframe : Bool) (out : List DecEvent) : Bool :=
  nextSat o (fun t => t.dec == ⟨c, inframe⟩ && t.decOut == out)

/-- V-E3. -/
theorem test_enc_put_zero : encResult (exec (.encPut 0#8) (encAt 1 0x00#7 [1#8])) ⟨2, 0x02#7, [1#8]⟩ [] = true := by decide
/-- V-E6: the seventh byte is the window's only zero. -/
theorem test_enc_put_last_zero :
    encResult (exec (.encPut 0#8) (encAt 6 0#7 (upTo 6))) EncState.reset (0x40#8 :: upTo 6) = true := by decide
/-- V-E7. -/
theorem test_enc_put_window_becomes_run :
    encResult (exec (.encPut 7#8) (encAt 6 0#7 (upTo 6))) ⟨7, 0#7, upTo 7⟩ [] = true := by decide
/-- V-E12. -/
theorem test_enc_put_zero_ends_run :
    encResult (exec (.encPut 0#8) (encAt 8 0#7 (upTo 8))) EncState.reset (0x81#8 :: upTo 8) = true := by decide
/-- V-E16. -/
theorem test_enc_put_134th :
    encResult (exec (.encPut 0x86#8) (encAt 133 0#7 (upTo 133))) EncState.reset (0xFF#8 :: upTo 134) = true := by decide
/-- V-N5. -/
theorem test_enc_end_window :
    encResult (exec .encEnd (encAt 3 0x02#7 [1#8, 2#8])) EncState.reset [0x7A#8, 1#8, 2#8, 0#8] = true := by decide
/-- V-N11. -/
theorem test_enc_end_run :
    encResult (exec .encEnd (encAt 7 0#7 (upTo 7))) EncState.reset (0x80#8 :: upTo 7 ++ [0#8]) = true := by decide
/-- V-C, code 00. -/
theorem test_end : decResult (exec .frameEnd (decAt .code true)) .code false [.frameEnd .ok] = true := by decide
/-- V-C, code 55. -/
theorem test_mask_55 :
    decResult (exec (.mask 0x55#7) (decAt .code false)) (.mask 0x55#7 1) true [.data 0#8] = true := by decide
/-- V-C, code 7F. -/
theorem test_mask_7F :
    decResult (exec (.mask 0x7F#7) (decAt .code false)) .code true (List.replicate 7 (.data 0#8)) = true := by decide
/-- V-C, code C0. -/
theorem test_run_C0 : decResult (exec (.run 64#7) (decAt .code false)) (.lit 71 true) true [] = true := by decide
/-- V-C, code FF. -/
theorem test_run134 : decResult (exec .run134 (decAt .code false)) (.lit 134 false) true [] = true := by decide
/-- V-D2. -/
theorem test_literal_last_of_run :
    decResult (exec (.literal 7#8) (decAt (.lit 1 true) true)) .code true [.data 7#8, .data 0#8] = true := by decide
/-- V-D9. -/
theorem test_literal_in_window :
    decResult (exec (.literal 2#8) (decAt (.mask 0x1A#7 2) true)) (.mask 0x1A#7 5) true
      [.data 2#8, .data 0#8, .data 0#8] = true := by decide
/-- V-D4. -/
theorem test_zero_in_literal_run :
    decResult (exec .zeroInLiteral (decAt (.lit 5 true) true)) .code false
      [.frameEnd (.malformedFrame .truncated)] = true := by decide
/-- V-D3: no implied zero after RUN134. -/
theorem test_dec_put_last_of_run134 :
    decResult (exec (.decPut 0x86#8) (decAt (.lit 1 false) true)) .code true [.data 0x86#8] = true := by decide
/-- V-D6: 0xFF in a literal position is data. -/
theorem test_dec_put_ff_is_data :
    decResult (exec (.decPut 0xFF#8) (decAt (.lit 3 true) true)) (.lit 2 true) true [.data 0xFF#8] = true := by decide
/-- V-I4. -/
theorem test_dec_eoi_in_frame :
    decResult (exec .decEoi (decAt (.mask 0x05#7 3) true)) .code false
      [.frameEnd (.malformedFrame .noTerminator)] = true := by decide
/-- V-I1. -/
theorem test_dec_eoi_at_boundary : decResult (exec .decEoi (decAt .code false)) .code false [] = true := by decide
/-- V-R1. -/
theorem test_reset_encoder :
    encResult (exec (.reset .encoder) (encAt 5 0x0A#7 (upTo 3))) EncState.reset [] = true := by decide
/-- V-R3. -/
theorem test_reset_decoder :
    decResult (exec (.reset .decoder) (decAt (.lit 9 true) true)) .code false [] = true := by decide
/-- 70_reset_and_hazards.md R146: output not yet transferred is lost. -/
theorem test_reset_discards_pending :
    nextSat (step { planned [.rst .decoder 1#1] with decOut := [.data 1#8] }) (fun t => t.decOut == []) = true := by decide
/-- V-F20, V-G18. -/
theorem test_encode_mixed :
    encodeMessage ([1#8, 0#8, 2#8, 0#8, 0#8] ++ (upTo 13).drop 2) =
      [0x1A#8, 1#8, 2#8, 3#8, 4#8, 0x82#8] ++ (upTo 13).drop 4 ++ [0#8] := by decide
/-- V-G27. -/
theorem test_decode_truncated :
    decodeFrame [0x55#8, 0xFF#8, 0xFF#8, 0#8] = .malformed .truncated [0#8, 0xFF#8, 0#8, 0xFF#8, 0#8] := by decide
/-- V-G19. -/
theorem test_decode_rest :
    decodeFrame [0x78#8, 1#8, 2#8, 3#8, 0#8, 0xAA#8] = .ok [1#8, 2#8, 3#8, 0#8, 0#8, 0#8, 0#8] [0xAA#8] := by decide
/-- R17: an `END` carries data 0x00 and its status. -/
theorem test_port_of_end : (DecEvent.frameEnd (.malformedFrame .noTerminator)).port = ⟨true, 2#2, 0#8⟩ := by decide
/-- The host's fetch: a code byte is run as the next instruction, also from the middle of a run. -/
theorem test_fetch_word :
    nextSat (step ((decAt (.lit 5 true) true).withFetchWord 8 0xFF)) (fun t => t.dec.ctl == .lit 134 false) = true := by
  decide

/-- n non-zero bytes. -/
def ones (n : Nat) : List Byte := List.replicate n 1#8

/-- The longest run an encoder holds between events. -/
def longestRun : EncState := ⟨133, 0#7, ones 133⟩

/-- The reset state with the registers of both blocks set. -/
def both (e : EncState) (d : DecState) : State := { State.reset with enc := e, dec := d }

/-- The longest run meets the invariant. -/
theorem inv_longest_run : longestRun.Inv := by
  refine ⟨by decide, fun b hb => ?_, by decide, fun _ => ⟨rfl, by simp [longestRun, ones]⟩⟩
  rw [List.eq_of_mem_replicate hb]; decide

theorem inv_enc_both (e : EncState) (d : DecState) (h : e.Inv) : (both e d).enc.Inv := h

theorem inv_both (e : EncState) (d : DecState) (h : e.Inv) (h' : d.Inv) : (both e d).Inv := ⟨h, h'⟩

/-- The longest chunks are chunks of the grammar. -/
theorem wf_longest_chunks :
    (Chunk.run (ones 133)).wf = true ∧ (Chunk.run134 (ones 134)).wf = true ∧ 0x00#8 ∉ ones 133 := by
  simp [Chunk.wf, ones, Config.runMin, Config.runMax, Config.runLong]

/-! ## Witnesses: states and operands that meet the hypotheses of the statements -/

theorem witness_EncPutInWindowPhase :
    (encAt 6 0x3F#7 []).enc.run ≤ 6 ∧
    (⟨7, 0x7F#7, []⟩ : EncState) = (if (0#8 : Byte) = 0x00#8
      then ⟨(encAt 6 0x3F#7 []).enc.run + 1, 0x3F#7 ||| (1#7 <<< (encAt 6 0x3F#7 []).enc.run), []⟩
      else ⟨7, 0x3F#7, [0#8]⟩) := by decide

theorem witness_EncPutExtendsARun :
    (0xFF#8 ≠ 0x00#8) ∧ (7 ≤ (encAt 132 0#7 (upTo 132)).enc.run ∧ (encAt 132 0#7 (upTo 132)).enc.run ≤ 132) ∧
    (both longestRun DecState.reset).enc.run = 133 := by decide

theorem witness_EncPutZeroEndsARun :
    (7 ≤ (encAt 7 0#7 (upTo 7)).enc.run ∧ (encAt 7 0#7 (upTo 7)).enc.run ≤ 133) ∧
    (7 ≤ (both longestRun DecState.reset).enc.run ∧ (both longestRun DecState.reset).enc.run ≤ 133) := by decide

theorem witness_EncEndClosesTheFrame :
    State.reset.enc.run = 0 ∧ (1 ≤ (encAt 6 0#7 (upTo 6)).enc.run ∧ (encAt 6 0#7 (upTo 6)).enc.run ≤ 6) ∧
    (7 ≤ (both longestRun DecState.reset).enc.run ∧ (both longestRun DecState.reset).enc.run ≤ 133) ∧
    (encAt 3 0x02#7 [1#8, 2#8]).enc.Inv := by decide

theorem witness_EndOfFrameReportsOk : (decAt .code true).dec.ctl = .code := by decide

theorem witness_MaskCodeDrainsLeadingZeros : (decAt .code true).dec.ctl = .code ∧ 0x7F#7 ≠ 0#7 := by decide

theorem witness_RunCodeDeclaresLiterals : (decAt .code false).dec.ctl = .code ∧ 126#7 ≠ 127#7 := by decide

theorem witness_Run134CodeDeclaresLiterals : (decAt .code true).dec.ctl = .code := by decide

theorem witness_RunLiteralIsCopied :
    (0x80#8 ≠ 0x00#8 ∧ (decAt (.lit 1 true) true).dec.ctl = .lit 1 true ∧ 1 ≤ 1) ∧
    ((decAt (.lit 134 false) true).dec.ctl = .lit 134 false ∧ 1 ≤ 134) := by decide

theorem witness_WindowLiteralIsCopiedAndDrained :
    0xFF#8 ≠ 0x00#8 ∧ (decAt (.mask 0x3F#7 6) true).dec.ctl = .mask 0x3F#7 6 ∧ 6 ≤ 6 := by decide

theorem witness_ZeroInLiteralRaisesTruncated :
    (decAt (.lit 134 false) true).dec.ctl.position = .literal ∧
    (decAt (.mask 0x3F#7 6) true).dec.ctl.position = .literal := by decide

theorem witness_EoiRaisesNoTerminatorInFrame :
    (decAt (.lit 5 true) true).dec.inframe = true ∧ State.reset.dec.inframe = false := by decide

theorem witness_DecPutDispatch :
    (decAt .code true).dec.ctl.position = .code ∧ (decAt (.lit 1 true) true).dec.ctl.position = .literal ∧
    (0x00#8).toNat = 0 ∧ (1 ≤ (0x7F#8).toNat ∧ (0x7F#8).toNat ≤ 0x7F) ∧
    (0x80 ≤ (0xFE#8).toNat ∧ (0xFE#8).toNat ≤ 0xFE) ∧ (0xFF#8).toNat = 0xFF ∧ (0x01#8).toNat ≠ 0 := by decide

theorem witness_DecoderTransitionTable_code :
    (decAt .code true).dec.ctl = .code ∧ (1 ≤ (0x3F#8).toNat ∧ (0x3F#8).toNat ≤ 0x7E) ∧ (6 : Nat) < 7 ∧
    (0x3F#8).getLsbD 6 = false ∧ (∀ j < 6, (0x3F#8).getLsbD j = true) ∧
    (0x80 ≤ (0xFE#8).toNat ∧ (0xFE#8).toNat ≤ 0xFE) := by decide

theorem witness_DecoderTransitionTable_lit :
    (decAt (.lit 2 true) true).dec.ctl = .lit 2 true ∧ 2 ≤ 2 ∧ 0x01#8 ≠ 0x00#8 ∧
    (decAt (.lit 1 true) true).dec.ctl = .lit 1 true ∧ (decAt (.lit 1 false) true).dec.ctl = .lit 1 false ∧
    (decAt (.lit 1 false) true).dec.ctl ≠ .code := by decide

theorem witness_DecoderTransitionTable_mask :
    (decAt (.mask 0x1A#7 2) true).dec.ctl = .mask 0x1A#7 2 ∧ (0x1A#7).getLsbD 5 = false ∧
    (∀ j, 2 < j → j < 5 → (0x1A#7).getLsbD j = true) ∧
    (decAt (.mask 0x7E#7 0) true).dec.ctl = .mask 0x7E#7 0 ∧
    (∀ j, 0 < j → j < 7 → (0x7E#7).getLsbD j = true) := by
  refine ⟨rfl, by decide, fun j h h' => ?_, rfl, fun j h h' => ?_⟩ <;> interval_cases j <;> decide

theorem witness_DecoderTransitionTable_eoi :
    (decAt (.mask 0x05#7 3) true).dec.inframe = true ∧ State.reset.dec.ctl = .code ∧
    State.reset.dec.inframe = false := by decide

theorem witness_FrameByteInstructionIsItsByte :
    ((Instr.mask 1#7).WellFormed ∧ encode (.mask 1#7) = .code 0x01#8) ∧
    ((Instr.literal 0xFF#8).WellFormed ∧ encode (.literal 0xFF#8) = .literal 0xFF#8) := by decide

theorem witness_StepRunsTheDecodedInstruction :
    (planned [.decIn 0x01A#9]).moves = .decIn 0x01A#9 :: [] ∧ (Move.decIn 0x01A#9).word = some (.decIn 0x01A#9) ∧
    decode (.decIn 0x01A#9) = .ok (.decPut 0x1A#8) := by decide

theorem witness_OutputTransferIsLosslessAndInOrder :
    ((planned [.encOut]).moves = .encOut :: [] ∧ { planned [.encOut] with encOut := [1#8] }.encOut = 1#8 :: [] ∧
      (planned [.encOut]).encOut = []) ∧
    ((planned [.decOut]).moves = .decOut :: [] ∧
      { planned [.decOut] with decOut := [.data 1#8] }.decOut = .data 1#8 :: [] ∧ (planned [.decOut]).decOut = []) := by
  decide

theorem witness_NoEventChangesNothing :
    State.reset.moves = [] ∧ (planned [.rst .encoder 0#1]).moves = .rst .encoder 0#1 :: [] := by decide

theorem witness_InstructionFrame :
    (∃ t, exec (.encPut 1#8) State.reset = .next t ∧ isReset (.encPut 1#8) = false ∧ blockOf (.encPut 1#8) = .encoder) ∧
    ∃ t, exec (.decPut 1#8) State.reset = .next t ∧ isReset (.decPut 1#8) = false ∧ blockOf (.decPut 1#8) = .decoder :=
  ⟨⟨_, rfl, rfl, rfl⟩, ⟨_, rfl, rfl, rfl⟩⟩

theorem witness_BlocksDoNotInfluenceEachOther :
    (∃ t t', isReset .encEnd = false ∧ exec .encEnd State.reset = .next t ∧
      exec .encEnd (decAt (.lit 3 true) true) = .next t' ∧ blockOf .encEnd = .encoder ∧
      State.reset.enc = (decAt (.lit 3 true) true).enc) ∧
    ∃ t t', isReset .decEoi = false ∧ exec .decEoi State.reset = .next t ∧
      exec .decEoi (encAt 1 1#7 []) = .next t' ∧ blockOf .decEoi = .decoder ∧ State.reset.dec = (encAt 1 1#7 []).dec :=
  ⟨⟨_, _, rfl, rfl, rfl, rfl, rfl⟩, ⟨_, _, rfl, rfl, rfl, rfl, rfl⟩⟩

theorem witness_StepKeepsTheInvariant :
    (both longestRun ⟨.mask 0x3F#7 6, true⟩).Inv ∧
    ∃ t, step (both longestRun ⟨.mask 0x3F#7 6, true⟩) = .next t :=
  ⟨inv_both _ _ inv_longest_run (by decide), _, rfl⟩

theorem witness_RegistersFitTheirWidths :
    (both longestRun ⟨.lit 134 false, true⟩).Inv ∧
    (both ⟨6, 0x3F#7, []⟩ ⟨.mask 0x3F#7 6, true⟩).Inv :=
  ⟨inv_both _ _ inv_longest_run (by decide), by decide⟩

theorem witness_ResetStateEqualsEndOfFrameState :
    ((both longestRun DecState.reset).enc.Inv ∧ ∃ t, exec .encEnd (both longestRun DecState.reset) = .next t) ∧
    ∃ t, exec .decEoi (decAt .code true) = .next t ∧ isReset .decEoi = false ∧
      .frameEnd (.malformedFrame .noTerminator) ∈ t.decOut.drop (decAt .code true).decOut.length :=
  ⟨⟨inv_enc_both _ _ inv_longest_run, _, rfl⟩, ⟨_, rfl, rfl, by decide⟩⟩

theorem witness_SeenErrorsStaySeen :
    ∃ t, step { planned [.decOut] with decOut := [.data 1#8],
                                       decSent := [.frameEnd (.malformedFrame .truncated)] } = .next t ∧
      malformedSeen [.frameEnd (.malformedFrame .truncated)] = true := ⟨_, rfl, rfl⟩

theorem witness_DecodeOfEncodeIsTheInstruction : (Instr.run 126#7).WellFormed ∧ (Instr.mask 1#7).WellFormed := by decide

theorem witness_FrameBytesAndPortWordsDecode :
    decode (.code 0xFF#8) = .ok .run134 ∧ (TableWord.code 0xFF#8 = .code 0xFF#8 ∨ TableWord.code 0xFF#8 = .literal 0xFF#8) ∧
    (TableWord.literal 0#8 = .code 0#8 ∨ TableWord.literal 0#8 = .literal 0#8) ∧
    TableWord.encIn 0x1FF#9 = .encIn 0x1FF#9 ∧ TableWord.decIn 0#9 = .decIn 0#9 := by decide

theorem witness_CodePositionOpcodeMap :
    (0#8).toNat = 0 ∧ (1 ≤ (1#8).toNat ∧ (1#8).toNat ≤ 0x7F) ∧ (1 ≤ (0x7F#8).toNat ∧ (0x7F#8).toNat ≤ 0x7F) ∧
    (0x80 ≤ (0x80#8).toNat ∧ (0x80#8).toNat ≤ 0xFE) ∧ (0x80 ≤ (0xFE#8).toNat ∧ (0xFE#8).toNat ≤ 0xFE) ∧
    (0xFF#8).toNat = 0xFF := by decide

theorem witness_RunLengthField :
    (0x80 ≤ (0xFE#8).toNat ∧ (0xFE#8).toNat ≤ 0xFE) ∧ (7 ≤ 133 ∧ 133 ≤ 133) ∧ (7 ≤ 7 ∧ 7 ≤ 133) := by decide

theorem witness_EncPutHoldsOrEmitsTheMessage :
    ((encAt 6 0x1A#7 (upTo 3)).enc.Inv ∧ ∃ t, exec (.encPut 0#8) (encAt 6 0x1A#7 (upTo 3)) = .next t) ∧
    ((both longestRun DecState.reset).enc.Inv ∧ ∃ t, exec (.encPut 1#8) (both longestRun DecState.reset) = .next t) :=
  ⟨⟨by decide, _, rfl⟩, ⟨inv_enc_both _ _ inv_longest_run, _, rfl⟩⟩

theorem witness_EncEndEmitsTheHeldBytes :
    ((encAt 6 0x1A#7 (upTo 3)).enc.Inv ∧ ∃ t, exec .encEnd (encAt 6 0x1A#7 (upTo 3)) = .next t) ∧
    ((both longestRun DecState.reset).enc.Inv ∧ ∃ t, exec .encEnd (both longestRun DecState.reset) = .next t) :=
  ⟨⟨by decide, _, rfl⟩, ⟨inv_enc_both _ _ inv_longest_run, _, rfl⟩⟩

theorem witness_EncoderOutputPerEvent :
    State.reset.enc.Inv ∧ (encAt 1 1#7 []).enc.Inv ∧ (encAt 6 0x1A#7 (upTo 3)).enc.Inv ∧
    (encAt 7 0#7 (upTo 7)).enc.Inv ∧ (both longestRun DecState.reset).enc.Inv ∧
    (∃ t, exec (.encPut 0#8) (both longestRun DecState.reset) = .next t) ∧
    ∃ t, exec .encEnd (both longestRun DecState.reset) = .next t :=
  ⟨by decide, by decide, by decide, by decide, inv_enc_both _ _ inv_longest_run, ⟨_, rfl⟩, ⟨_, rfl⟩⟩

theorem witness_DecoderOutputPerEvent :
    (decAt (.mask 0x7E#7 0) true).dec.Inv ∧ (decAt (.lit 134 false) true).dec.Inv ∧ (decAt .code false).dec.Inv ∧
    (∃ t, exec (.decPut 1#8) (decAt (.mask 0x7E#7 0) true) = .next t) ∧
    (∃ t, exec .decEoi (decAt (.lit 134 false) true) = .next t) ∧ 0x80 ≤ (0x80#8).toNat :=
  ⟨by decide, by decide, by decide, ⟨_, rfl⟩, ⟨_, rfl⟩, by decide⟩

theorem witness_ChunkLengths :
    (Chunk.mask 0x1A#7 (upTo 4)).wf = true ∧ (Chunk.run (ones 133)).wf = true ∧ (Chunk.run134 (ones 134)).wf = true :=
  ⟨by decide, wf_longest_chunks.1, wf_longest_chunks.2.1⟩

theorem witness_DecoderDecodesAChunk :
    zeros7.wf = true ∧ (planned (decPuts zeros7.bytes ++ [])).dec.ctl = .code ∧
    (planned (decPuts zeros7.bytes ++ [])).moves = decPuts zeros7.bytes ++ [] := by decide

theorem witness_EncoderMachineComputesEncode :
    (planned ([[], [1#8]].flatMap encMessage ++ [.encOut])).enc = EncState.reset ∧
    (planned ([[], [1#8]].flatMap encMessage ++ [.encOut])).moves = [[], [1#8]].flatMap encMessage ++ [.encOut] := by decide

theorem witness_EncoderLagAndPrefixStability :
    (planned (encPuts (upTo 8))).enc = EncState.reset ∧ (planned (encPuts (upTo 8))).moves = encPuts (upTo 8) := by decide

theorem witness_DecoderMachineComputesDecodeOk :
    (planned (decPuts [0x7F#8, 0#8, 5#8] ++ [eoiMove])).dec = DecState.reset ∧
    (planned (decPuts [0x7F#8, 0#8, 5#8] ++ [eoiMove])).moves = decPuts [0x7F#8, 0#8, 5#8] ++ [eoiMove] ∧
    decodeFrame [0x7F#8, 0#8, 5#8] = .ok (zeros 7) [5#8] := by decide

theorem witness_DecoderMachineComputesDecodeTruncated :
    (planned (decPuts [0x3F#8, 0#8] ++ [])).dec = DecState.reset ∧
    (planned (decPuts [0x3F#8, 0#8] ++ [])).moves = decPuts [0x3F#8, 0#8] ++ [] ∧
    decodeFrame [0x3F#8, 0#8] = .malformed .truncated (zeros 6) := by decide

theorem witness_DecoderMachineComputesDecodeNoTerminator :
    ((planned (decPuts [1#8] ++ eoiMove :: [])).dec = DecState.reset ∧
      (planned (decPuts [1#8] ++ eoiMove :: [])).moves = decPuts [1#8] ++ eoiMove :: [] ∧
      decodeFrame [1#8] = .malformed .noTerminator [0#8] ∧ [1#8] ≠ ([] : List Byte)) ∧
    ((planned (decPuts [] ++ eoiMove :: [])).dec = DecState.reset ∧
      (planned (decPuts [] ++ eoiMove :: [])).moves = decPuts [] ++ eoiMove :: [] ∧
      decodeFrame [] = .malformed .noTerminator []) := by decide

theorem witness_RoundTripWithBoundedPadding :
    (planned (decPuts (encodeMessage [1#8]) ++ [])).dec = DecState.reset ∧
    (planned (decPuts (encodeMessage [1#8]) ++ [])).moves = decPuts (encodeMessage [1#8]) ++ [] := by decide

theorem witness_OverheadBound : 0x00#8 ∉ upTo 7 := by decide

theorem witness_ExactPadding :
    (planned (encPuts [1#8])).enc = EncState.reset ∧ (planned (encPuts [1#8])).moves = encPuts [1#8] := by decide

theorem witness_EncodeInvertsDecode :
    IsFrame [0x7F#8, 0#8] ∧ decodeFrame [0x7F#8, 0#8] = .ok (zeros 7) [] := ⟨⟨[zeros7], by decide, by decide⟩, by decide⟩

theorem witness_StreamsOfFrames :
    (planned (decPuts ([[], [1#8]].flatMap encodeMessage) ++ [])).dec = DecState.reset ∧
    (planned (decPuts ([[], [1#8]].flatMap encodeMessage) ++ [])).moves =
      decPuts ([[], [1#8]].flatMap encodeMessage) ++ [] := by decide

theorem witness_WhatIsLost : 6 ≤ padding [1#8] ∧ encodeMessage [1#8] = encodeMessage [1#8, 0#8] := by decide

theorem witness_DecodeClassifiesEverySequence :
    0x00#8 ∉ [0x7F#8] ∧ (planned (decPuts [0x7F#8])).dec = DecState.reset ∧
    (planned (decPuts [0x7F#8])).moves = decPuts [0x7F#8] := by decide

theorem witness_TruncatedFramesAreRejected :
    chunksWf [zeros7] = true ∧ 0xFF#8 ≠ 0x00#8 ∧ (ones 132).length < literalCount (decodeCode 0xFF#8) ∧
    0x00#8 ∉ ones 132 := by
  refine ⟨by decide, by decide, ?_, ?_⟩ <;> simp [ones, literalCount, decodeCode, Config.runLong]

theorem witness_DecoderRange :
    (planned (encPuts (zeros 7))).enc = EncState.reset ∧ (planned (encPuts (zeros 7))).moves = encPuts (zeros 7) ∧
    padding (zeros 7) = 0 := by decide

/-- The abandoned message has sent its first seven bytes (one chunk, 7F) and holds its last byte at the reset. -/
theorem witness_ResetInMidMessageJoinsTwoFrames :
    let b := zeros 7 ++ [5#8]
    let s := planned (encPuts b ++ (List.replicate 9 .encOut ++ .rst .encoder 1#1 :: encMessage [1#8]))
    s.enc = EncState.reset ∧ s.encOut = [] ∧ (encodeMessage b).length ≤ 9 ∧
    ∃ u, runFor b.length s = .next u ∧ u.enc.run = 1 ∧ u.encOut = [0x7F#8] :=
  ⟨rfl, rfl, by decide, _, rfl, by decide, by decide⟩

/-- Its held byte is lost and the next message's frame, 7E 01 00 (R120), stands directly after its chunk. -/
theorem test_reset_in_mid_message :
    nextSat (runFor 20 (planned (encPuts (zeros 7 ++ [5#8]) ++
      (List.replicate 9 .encOut ++ .rst .encoder 1#1 :: encMessage [1#8]))))
      (fun t => t.encTrace == [0x7F#8, 0x7E#8, 1#8, 0#8]) = true := by decide

end Sys2Proof.Tests
end

