-- ==== Sys2Proof/Proofs/Reset.lean ====
section
/-! `RESET` of a block: one rule per block for the whole next state, and the obligation that spells the registers out. -/

namespace Sys2Proof.Machine

/-- The encoder's `RESET` clears its registers (R33) and loses its pending output (R146). -/
theorem exec_reset_encoder (s : State) :
    exec (.reset .encoder) s = .next { s with enc := EncState.reset, encOut := [] } := rfl

/-- The decoder's `RESET` puts it at a frame boundary (R34) and loses its pending output (R146). -/
theorem exec_reset_decoder (s : State) :
    exec (.reset .decoder) s = .next { s with dec := DecState.reset, decOut := [] } := rfl

/-- Settles O2: the rule of each block, with its reset state written out register by register. -/
theorem resetPutsOneBlockInItsResetState : Obligations.ResetPutsOneBlockInItsResetState :=
  fun s => ⟨exec_reset_encoder s, exec_reset_decoder s⟩

end Sys2Proof.Machine
end

