-- ==== Sys2Proof/Proofs/RunField.lean ====
section
/-! The field of a RUN code byte (30_encoding.md R58, R61): `runByte` and its field determine each other, `runCode` is the
`runByte` of its length, and a code position reads every `runByte` but 0xFF as a RUN. -/

namespace Sys2Proof

/-- A byte with bit 7 set is the RUN byte of its seven low bits. -/
theorem runByte_setWidth (c : Byte) (h : 0x80 ≤ c.toNat) : runByte (c.setWidth 7) = c := by
  revert c; decide

/-- `n = c - 0x80` (R61). -/
theorem runByte_toNat (n : Bits7) : (runByte n).toNat = n.toNat + 0x80 := by
  revert n; decide

/-- `n = c & 0x7F` (R61): the mask of the seven low bits. -/
theorem and_7F_toNat (c : Byte) : (c &&& 0x7F#8).toNat = (c.setWidth 7).toNat := by
  simpa using Nat.and_two_pow_sub_one_eq_mod c.toNat 7

/-- A code position reads a RUN byte as the RUN of its field; field 127 would make it 0xFF, RUN134 (R59, R63). -/
theorem decodeCode_runByte (n : Bits7) (h : n ≠ 127#7) : decodeCode (runByte n) = .run n := by
  simp [decodeCode, runByte_ne_zero, runByte_eq_ff_iff, h]

/-- A code position reads 0x80 to 0xFE as the RUN of the seven low bits (R63). -/
theorem decodeCode_of_run_range (c : Byte) (hlo : 0x80 ≤ c.toNat) (hhi : c.toNat ≤ 0xFE) :
    decodeCode c = .run (c.setWidth 7) := by
  have hc : runByte (c.setWidth 7) = c := runByte_setWidth c hlo
  have hn : c.setWidth 7 ≠ 127#7 := fun hn => by
    have hff : c = 0xFF#8 := hc.symm.trans ((runByte_eq_ff_iff _).mpr hn)
    simp [hff] at hhi
  simpa [hc] using decodeCode_runByte _ hn

end Sys2Proof

namespace Sys2Proof.Machine

/-- The code byte of a run is the RUN byte of its length less 7 (R61); bits 7 and up of the difference do not show. -/
theorem runCode_eq_runByte (len : Nat) : runCode len = runByte (BitVec.ofNat 7 (len - 7)) := by
  refine BitVec.eq_of_getLsbD_eq fun i hi => ?_
  rcases Nat.lt_or_eq_of_le (Nat.le_of_lt_succ hi) with hlow | rfl
  · simp only [runCode, runByte, BitVec.getLsbD_or, BitVec.getLsbD_setWidth, BitVec.getLsbD_ofNat, hlow, hi,
      decide_true, Bool.true_and, Config.runMin_eq]
  · simp [runCode]

/-- The field L - 7 gives back the length L (R61). -/
theorem runLength_ofNat (len : Nat) (hlo : 7 ≤ len) (hhi : len ≤ 134) :
    runLength (BitVec.ofNat 7 (len - 7)) = len := by
  simp only [runLength, BitVec.toNat_ofNat, Config.runMin_eq]
  omega

/-- A code position reads the code byte of a run of 7 to 133 literals as the RUN of that field (R61, R63). -/
theorem decodeCode_runCode (len : Nat) (hlo : 7 ≤ len) (hhi : len ≤ 133) :
    decodeCode (runCode len) = .run (BitVec.ofNat 7 (len - 7)) := by
  rw [runCode_eq_runByte]
  refine decodeCode_runByte _ fun h => ?_
  have hn := congrArg BitVec.toNat h
  simp only [BitVec.toNat_ofNat] at hn
  omega

/-- Settles O32: the code byte gives the field by `decodeCode_of_run_range`, and a length gives its code byte by
`decodeCode_runCode`. -/
theorem runLengthField : Obligations.RunLengthField := by
  refine ⟨fun c hlo hhi => ⟨c.setWidth 7, ?_, ?_, and_7F_toNat c, rfl⟩, fun len hlo hhi => ?_, rfl, rfl, rfl, fun n => ?_⟩
  · exact congrArg Except.ok (decodeCode_of_run_range c hlo hhi)
  · have hc := runByte_toNat (c.setWidth 7)
    rw [runByte_setWidth c hlo] at hc
    omega
  · exact ⟨_, congrArg Except.ok (decodeCode_runCode len hlo hhi), runLength_ofNat len hlo (by omega), rfl⟩
  · exact Nat.le_add_left 7 n.toNat

end Sys2Proof.Machine
end

