-- ==== Sys2Proof/Proofs/EncoderRules.lean ====
section
/-! The encoder's operations, one rule per case (40_encoder.md R72 to R83): which operation an instruction is in each phase,
what it makes of the whole state, and the obligations that write these states out. -/

namespace Sys2Proof.Machine

/-- `ENC.PUT` in the window phase (R73, R74). -/
theorem exec_encPut_window (s : State) (b : Byte) (h : s.enc.run < 7) :
    exec (.encPut b) s = .next (putWindow b s) := congrArg _ (if_pos h)

/-- `ENC.PUT` in the run phase (R76, R77). -/
theorem exec_encPut_run (s : State) (b : Byte) (h : 7 ≤ s.enc.run) :
    exec (.encPut b) s = .next (putRun b s) := congrArg _ (if_neg (Nat.not_lt.mpr h))

/-- A zero is recorded in the mask and stored nowhere else (R73). -/
theorem putWindow_zero (s : State) :
    putWindow 0x00#8 s =
      completeWindow (s.setEnc ⟨s.enc.run + 1, s.enc.zeros ||| (1#7 <<< s.enc.run), s.enc.lits⟩) := rfl

/-- A non-zero byte of a window is a literal (R74). -/
theorem putWindow_of_ne (s : State) (b : Byte) (h : b ≠ 0x00#8) :
    putWindow b s = completeWindow (s.setEnc ⟨s.enc.run + 1, s.enc.zeros, s.enc.lits ++ [b]⟩) :=
  congrArg completeWindow (if_neg h)

/-- With the registers `e`, a full window that has a zero is emitted as a MASK chunk; any other stays (R75). -/
theorem completeWindow_setEnc (s : State) (e : EncState) :
    completeWindow (s.setEnc e) =
      if e.run = 7 ∧ e.zeros ≠ 0#7
        then { s with enc := EncState.reset, encOut := s.encOut ++ maskByte e.zeros :: e.lits }
        else s.setEnc e := rfl

/-- A non-zero byte in the run phase joins the run (R77). -/
theorem putRun_of_ne (s : State) (b : Byte) (h : b ≠ 0x00#8) :
    putRun b s = completeRun (s.setEnc ⟨s.enc.run + 1, s.enc.zeros, s.enc.lits ++ [b]⟩) := if_neg h

/-- With the registers `e`, a run of 134 is emitted under code 0xFF; a shorter one goes on growing (R78). -/
theorem completeRun_setEnc (s : State) (e : EncState) :
    completeRun (s.setEnc e) =
      if e.run = 134 then { s with enc := EncState.reset, encOut := s.encOut ++ 0xFF#8 :: e.lits }
      else s.setEnc e := rfl

/-- `ENC.END` closes the chunk under construction and sends the terminator (R80). -/
theorem exec_encEnd (s : State) : exec .encEnd s = .next ((closeChunk s).emitBytes [0x00#8]) := rfl

/-- Nothing pending: there is no chunk to close (R81). -/
theorem closeChunk_idle (s : State) (h : s.enc.run = 0) : closeChunk s = s := if_pos h

/-- A final partial window goes out with its pad bits set (R82). -/
theorem closeChunk_window (s : State) (hlo : 1 ≤ s.enc.run) (hhi : s.enc.run ≤ 6) :
    closeChunk s = flush (maskByte (s.enc.zeros ||| padBits s.enc.run)) s :=
  (if_neg (Nat.ne_of_gt hlo)).trans (if_pos (Nat.lt_succ_of_le hhi))

/-- A run the message ends inside goes out as a RUN chunk (R83). -/
theorem closeChunk_run (s : State) (h : 7 ≤ s.enc.run) : closeChunk s = flush (runCode s.enc.run) s :=
  (if_neg (by omega)).trans (if_neg (Nat.not_lt.mpr h))

/-- An encoder that holds no byte of a chunk has its reset registers (R22 (c)). -/
theorem EncState.eq_reset_of_run_eq_zero (e : EncState) (hinv : e.Inv) (h : e.run = 0) : e = EncState.reset := by
  obtain ⟨run, zeros, lits⟩ := e
  obtain rfl : run = 0 := h
  obtain ⟨-, -, hwindow, -⟩ := hinv
  obtain ⟨hclear, hcount⟩ := hwindow (Nat.succ_pos 6)
  have hzeros : zeros = 0#7 := BitVec.eq_of_getLsbD_eq fun i hi => by
    simpa using hclear i hi (Nat.zero_le i)
  have hlits : lits = [] := List.eq_nil_of_length_eq_zero (Nat.eq_zero_of_add_eq_zero_right hcount)
  rw [hzeros, hlits, EncState.reset]

/-- However the chunk is closed, the registers are then the reset registers (R80). -/
theorem closeChunk_enc (s : State) (hinv : s.enc.Inv) : (closeChunk s).enc = EncState.reset := by
  rcases Nat.eq_zero_or_pos s.enc.run with hidle | hlo
  · rw [closeChunk_idle s hidle]
    exact s.enc.eq_reset_of_run_eq_zero hinv hidle
  · rcases Nat.lt_or_ge 6 s.enc.run with hrun | hwindow
    · rw [closeChunk_run s hrun, flush_eq]
    · rw [closeChunk_window s hlo hwindow, flush_eq]

/-- Settles O3: the byte joins the window as a zero or as a literal, and `completeWindow_setEnc` says what becomes of it. -/
theorem encPutInWindowPhase : Obligations.EncPutInWindowPhase := by
  intro s b e hrun he
  rw [exec_encPut_window s b (Nat.lt_succ_of_le hrun)]
  refine congrArg _ ?_
  by_cases hb : b = 0x00#8
  · rw [if_pos hb] at he
    rw [hb, putWindow_zero, ← he, completeWindow_setEnc]
    rfl
  · rw [if_neg hb] at he
    rw [putWindow_of_ne s b hb, ← he, completeWindow_setEnc]
    rfl

/-- Settles O4: the byte joins the run, and `completeRun_setEnc` tells the run of 134 from a shorter one. -/
theorem encPutExtendsARun : Obligations.EncPutExtendsARun := by
  refine fun s b hb => ⟨fun hlo hhi => ?_, fun hfull => ?_⟩
  · rw [exec_encPut_run s b hlo, putRun_of_ne s b hb, completeRun_setEnc, if_neg (by simp; omega)]
    rfl
  · rw [exec_encPut_run s b (by omega), putRun_of_ne s b hb, completeRun_setEnc, if_pos (by simp [hfull])]
    rfl

/-- Settles O6: one `closeChunk` rule per case, and `closeChunk_enc` for the registers. -/
theorem encEndClosesTheFrame : Obligations.EncEndClosesTheFrame := by
  refine fun s => ⟨fun hidle => ?_, fun hlo hhi => ?_, fun hlo _ => ?_, fun hinv => ?_⟩
  · rw [exec_encEnd, closeChunk_idle s hidle]
    rfl
  · rw [exec_encEnd, closeChunk_window s hlo hhi, flush_eq, State.emitBytes, List.append_assoc]
    rfl
  · rw [exec_encEnd, closeChunk_run s hlo, flush_eq, State.emitBytes, List.append_assoc]
    rfl
  · exact ⟨_, exec_encEnd s, closeChunk_enc s hinv⟩

end Sys2Proof.Machine
end

