-- ==== Sys2Proof/Proofs/DecoderRules.lean ====
section
/-! The decoder's operations, one rule per case (41_decoder.md R91 to R103): which operation an instruction is in the
decoder's mode, what `drain` makes of the whole state, the dispatch of `DEC.PUT` through the decoder of the instruction set,
and the obligations that write the states out. -/

namespace Sys2Proof

/-- A code position reads 0x01 to 0x7F as the MASK of the seven low bits (R63). -/
theorem decodeCode_of_mask_range (c : Byte) (hlo : 1 ≤ c.toNat) (hhi : c.toNat ≤ 0x7F) :
    decodeCode c = .mask (c.setWidth 7) := by
  have hend : c ≠ 0x00#8 := by rintro rfl; simp at hlo
  have hlong : c ≠ 0xFF#8 := by rintro rfl; simp at hhi
  have htop : c.getLsbD 7 = false := Nat.testBit_lt_two_pow (Nat.lt_succ_of_le hhi)
  simp only [decodeCode, hend, hlong, htop, if_false, Bool.false_eq_true]

/-- A literal position reads a non-zero byte as a literal (R63). -/
theorem decodeLiteral_of_ne (c : Byte) (h : c ≠ 0x00#8) : decodeLiteral c = .literal c := if_neg h

end Sys2Proof

namespace Sys2Proof.Machine

/-- A code position is mode `CODE` (R24). -/
theorem Ctl.eq_code_of_position (c : Ctl) (h : c.position = .code) : c = .code := by
  cases c with
  | code => rfl
  | lit cnt az => cases h
  | mask m idx => cases h

/-- `END` in a code position (R92). -/
theorem exec_frameEnd_code (s : State) (h : s.dec.ctl = .code) : exec .frameEnd s = .next (endFrame s) := by
  simp only [exec, execFrameEnd, inCodePosition, h]

/-- `MASK` in a code position (R93). -/
theorem exec_mask_code (s : State) (m : Bits7) (h : s.dec.ctl = .code) : exec (.mask m) s = .next (startMask m s) := by
  simp only [exec, execMask, inCodePosition, h]

/-- `RUN` in a code position (R95). -/
theorem exec_run_code (s : State) (n : Bits7) (h : s.dec.ctl = .code) :
    exec (.run n) s = .next (startLit (n.toNat + 7) true s) := by
  simp only [exec, execRun, inCodePosition, h, runLength]

/-- `RUN134` in a code position (R96). -/
theorem exec_run134_code (s : State) (h : s.dec.ctl = .code) : exec .run134 s = .next (startLit 134 false s) := by
  simp only [exec, execRun134, inCodePosition, h]

/-- `LITERAL` in mode `LIT` (R99). -/
theorem exec_literal_lit (s : State) (v : Byte) (cnt : Nat) (az : Bool) (h : s.dec.ctl = .lit cnt az) :
    exec (.literal v) s = .next (takeRunLiteral v cnt az s) := by
  simp only [exec, execLiteral, h]

/-- `LITERAL` in mode `MASK` (R100). -/
theorem exec_literal_mask (s : State) (v : Byte) (m : Bits7) (idx : Nat) (h : s.dec.ctl = .mask m idx) :
    exec (.literal v) s = .next (takeMaskLiteral v m idx s) := by
  simp only [exec, execLiteral, h]

/-- `ZERO_IN_LITERAL` in either literal mode (R98). -/
theorem exec_zeroInLiteral_literal (s : State) (h : s.dec.ctl.position = .literal) :
    exec .zeroInLiteral s = .next (raiseMalformed .truncated s) := by
  cases hctl : s.dec.ctl with
  | code => rw [hctl] at h; cases h
  | lit cnt az => simp only [exec, execZeroInLiteral, hctl]
  | mask m idx => simp only [exec, execZeroInLiteral, hctl]

/-- `DEC.EOI` asks only whether a frame is in progress (R103). -/
theorem exec_decEoi (s : State) :
    exec .decEoi s = .next (if s.dec.inframe then raiseMalformed .noTerminator s else s) := rfl

/-- A literal of a run: the last one leaves the run, with the implied zero of a RUN; any other counts down (R99). -/
theorem takeRunLiteral_eq (v : Byte) (cnt : Nat) (az : Bool) (s : State) (h : 1 ≤ cnt) :
    takeRunLiteral v cnt az s =
      if cnt = 1
        then { s with dec := ⟨.code, s.dec.inframe⟩,
                      decOut := s.decOut ++ .data v :: (if az then [.data 0x00#8] else []) }
        else { s with dec := ⟨.lit (cnt - 1) az, s.dec.inframe⟩, decOut := s.decOut ++ [.data v] } := by
  by_cases hlast : cnt = 1
  · rw [if_pos hlast, takeRunLiteral, if_pos (by omega)]
    rfl
  · rw [if_neg hlast, takeRunLiteral, if_neg (by omega)]
    rfl

/-- Where `drain` from position `idx` stops, and the state it leaves there (R94): the zeros of the positions passed are
emitted, and the window is complete or the literal of the stopping position is awaited. -/
theorem exists_drain_eq (m : Bits7) (idx : Nat) (s : State) (h : idx ≤ 7) :
    ∃ i, idx ≤ i ∧ i ≤ 7 ∧ (∀ j, idx ≤ j → j < i → m.getLsbD j = true) ∧ (i < 7 → m.getLsbD i = false) ∧
      drain m idx s =
        { s with dec := ⟨if i = 7 then .code else .mask m i, s.dec.inframe⟩,
                 decOut := s.decOut ++ List.replicate (i - idx) (.data 0x00#8) } := by
  refine ⟨skipZeros m 7 idx, le_skipZeros m 7 idx, skipZeros_le m 7 idx h, fun j => skipZeros_passed m 7 idx j,
    skipZeros_stops m 7 idx (Nat.le_add_left 7 idx), ?_⟩
  rw [drain_eq, zeros, List.map_replicate]
  rfl

/-- In a code position a byte is the instruction `decodeCode` reads (R91, rows of mode `CODE`). -/
theorem exec_decPut_code (s : State) (c : Byte) (h : s.dec.ctl = .code) :
    exec (.decPut c) s = exec (decodeCode c) s := by
  have hread : exec (.decPut c) s = .next (readCode c s) := by simp only [exec, execDecPut, readByte, h]
  rw [hread, readCode, decodeCode]
  split
  · exact (exec_frameEnd_code s h).symm
  · split
    · exact (exec_run134_code s h).symm
    · split
      · exact (exec_run_code s _ h).symm
      · exact (exec_mask_code s _ h).symm

/-- In a literal position a byte is the instruction `decodeLiteral` reads (R91, rows of modes `LIT` and `MASK`). -/
theorem exec_decPut_literal (s : State) (c : Byte) (h : s.dec.ctl.position = .literal) :
    exec (.decPut c) s = exec (decodeLiteral c) s := by
  rw [decodeLiteral]
  cases hctl : s.dec.ctl with
  | code => rw [hctl] at h; cases h
  | lit cnt az =>
    simp only [exec, execDecPut, readByte, hctl, readRunLiteral]
    split
    · exact (exec_zeroInLiteral_literal s h).symm
    · exact (exec_literal_lit s c cnt az hctl).symm
  | mask m idx =>
    simp only [exec, execDecPut, readByte, hctl, readMaskLiteral]
    split
    · exact (exec_zeroInLiteral_literal s h).symm
    · exact (exec_literal_mask s c m idx hctl).symm

/-- Settles O8: `MASK` drains from position 0, and `exists_drain_eq` says where that stops. -/
theorem maskCodeDrainsLeadingZeros : Obligations.MaskCodeDrainsLeadingZeros := by
  intro s m hcode _
  obtain ⟨i, _, hi, hpassed, hstop, hdrain⟩ :=
    exists_drain_eq m 0 (s.setDec { s.dec with inframe := true }) (Nat.zero_le 7)
  refine ⟨i, hi, fun j => hpassed j (Nat.zero_le j), hstop, ?_⟩
  rw [exec_mask_code s m hcode, startMask, hdrain]
  rfl

/-- Settles O12: the literal is emitted, then the drain goes on behind it as `exists_drain_eq` says. -/
theorem windowLiteralIsCopiedAndDrained : Obligations.WindowLiteralIsCopiedAndDrained := by
  intro s v m idx _ hctl hidx
  obtain ⟨i, hlt, hi, hpassed, hstop, hdrain⟩ :=
    exists_drain_eq m (idx + 1) (s.emitEvents [.data v]) (Nat.succ_le_succ hidx)
  refine ⟨i, hlt, hi, hpassed, hstop, ?_⟩
  rw [exec_literal_mask s v m idx hctl, takeMaskLiteral, hdrain, State.emitEvents_decOut, List.append_assoc]
  rfl

/-- Settles O15: `DEC.PUT` is the instruction its byte decodes to in the decoder's position, and each row names that
instruction. -/
theorem decPutDispatch : Obligations.DecPutDispatch := by
  intro s c
  have hcode (h : s.dec.ctl.position = .code) := exec_decPut_code s c (s.dec.ctl.eq_code_of_position h)
  have hliteral := exec_decPut_literal s c
  refine ⟨fun h hc => ?_, fun h hlo hhi => ?_, fun h hlo hhi => ?_, fun h hc => ?_, fun h hc => ?_, fun h hc => ?_⟩
  · obtain rfl : c = 0x00#8 := BitVec.eq_of_toNat_eq hc
    exact hcode h
  · rw [hcode h, decodeCode_of_mask_range c hlo hhi]
  · rw [hcode h, decodeCode_of_run_range c hlo hhi]
  · obtain rfl : c = 0xFF#8 := BitVec.eq_of_toNat_eq hc
    exact hcode h
  · obtain rfl : c = 0x00#8 := BitVec.eq_of_toNat_eq hc
    exact hliteral h
  · have hne : c ≠ 0x00#8 := fun h0 => hc (congrArg BitVec.toNat h0)
    rw [hliteral h, decodeLiteral_of_ne c hne]

/-- Settles O7: the state written out is that of `endFrame`. -/
theorem endOfFrameReportsOk : Obligations.EndOfFrameReportsOk := exec_frameEnd_code

/-- Settles O9: `RUN` in mode `CODE` is `startLit`; a field other than 127 is at most 126. -/
theorem runCodeDeclaresLiterals : Obligations.RunCodeDeclaresLiterals := by
  intro s n hcode hn
  have hfield : n.toNat ≠ 127 := fun h => hn (BitVec.eq_of_toNat_eq h)
  have hlt : n.toNat < 128 := n.isLt
  exact ⟨exec_run_code s n hcode, by omega, by omega⟩

/-- Settles O10: the state written out is that of `startLit` with 134 literals and no implied zero. -/
theorem run134CodeDeclaresLiterals : Obligations.Run134CodeDeclaresLiterals := exec_run134_code

/-- Settles O11: `LITERAL` in mode `LIT` is `takeRunLiteral`. -/
theorem runLiteralIsCopied : Obligations.RunLiteralIsCopied := by
  intro s v cnt az _ hctl hcnt
  rw [exec_literal_lit s v cnt az hctl, takeRunLiteral_eq v cnt az s hcnt]

/-- Settles O13: the state written out is that of `raiseMalformed`, which both literal modes reach. -/
theorem zeroInLiteralRaisesTruncated : Obligations.ZeroInLiteralRaisesTruncated := exec_zeroInLiteral_literal

/-- Settles O14: the two branches of `exec_decEoi`. -/
theorem eoiRaisesNoTerminatorInFrame : Obligations.EoiRaisesNoTerminatorInFrame := by
  refine fun s => ⟨fun hin => ?_, fun hout => ?_⟩
  · rw [exec_decEoi, if_pos hin, raiseMalformed_eq]
    rfl
  · rw [exec_decEoi, if_neg (Bool.eq_false_iff.mp hout)]

end Sys2Proof.Machine
end

