-- ==== Sys2Proof/Proofs/ChunkGrammar.lean ====
section
/-! The chunks of the grammar (30_encoding.md R53, R57 to R62): what `Chunk.wf` asks for each kind, and a window whose
literals are exactly those its mask asks for, position by position. -/

namespace Sys2Proof.Machine

/-- The grammar's test for literals is that none is 0x00. -/
theorem all_ne_zero_iff (x : List Byte) : x.all (· != 0x00#8) = true ↔ 0x00#8 ∉ x := by
  simp only [List.all_eq_true, bne_iff_ne]
  exact List.forall_mem_ne'

theorem Chunk.wf_mask_iff (m : Bits7) (lits : List Byte) :
    (Chunk.mask m lits).wf = true ↔ m ≠ 0#7 ∧ lits.length = 7 - popcount m ∧ 0x00#8 ∉ lits := by
  rw [← all_ne_zero_iff]
  simp [Chunk.wf, and_assoc]

theorem Chunk.wf_run_iff (lits : List Byte) :
    (Chunk.run lits).wf = true ↔ 7 ≤ lits.length ∧ lits.length ≤ 133 ∧ 0x00#8 ∉ lits := by
  rw [← all_ne_zero_iff]
  simp [Chunk.wf, and_assoc]

theorem Chunk.wf_run134_iff (lits : List Byte) :
    (Chunk.run134 lits).wf = true ↔ lits.length = 134 ∧ 0x00#8 ∉ lits := by
  rw [← all_ne_zero_iff]
  simp [Chunk.wf]

/-- A grammar chunk's literals hold no zero. -/
theorem Chunk.zero_notMem_lits (c : Chunk) (h : c.wf = true) : 0x00#8 ∉ c.lits := by
  cases c with
  | mask m lits =>
    obtain ⟨-, -, hlits⟩ := (wf_mask_iff m lits).mp h
    exact hlits
  | run lits =>
    obtain ⟨-, -, hlits⟩ := (wf_run_iff lits).mp h
    exact hlits
  | run134 lits => exact ((wf_run134_iff lits).mp h).2

/-- The field of a run of 7 to 133 literals is not the one of RUN134 (R58, R59). -/
theorem runField_ne_127 (len : Nat) (hlo : 7 ≤ len) (hhi : len ≤ 133) : BitVec.ofNat 7 (len - 7) ≠ 127#7 := by
  intro h
  have hn := congrArg BitVec.toNat h
  simp only [BitVec.toNat_ofNat] at hn
  omega

/-- A grammar chunk's code byte is no terminator (R57 to R59). -/
theorem Chunk.code_ne_zero (c : Chunk) (h : c.wf = true) : c.code ≠ 0x00#8 := by
  cases c with
  | mask m lits => exact (maskByte_eq_zero_iff m).not.mpr ((wf_mask_iff m lits).mp h).1
  | run lits => rw [Chunk.code, runCode_eq_runByte]; exact runByte_ne_zero _
  | run134 lits => rw [Chunk.code]; decide

/-- No byte of a grammar chunk is zero (R66). -/
theorem Chunk.zero_notMem_bytes (c : Chunk) (h : c.wf = true) : 0x00#8 ∉ c.bytes :=
  List.not_mem_cons_of_ne_of_not_mem (c.code_ne_zero h).symm (c.zero_notMem_lits h)

@[simp] theorem chunksBytes_nil : chunksBytes [] = [] := rfl

@[simp] theorem chunksDecoded_nil : chunksDecoded [] = [] := rfl

theorem chunksBytes_cons (c : Chunk) (cs : List Chunk) : chunksBytes (c :: cs) = c.bytes ++ chunksBytes cs := rfl

theorem chunksDecoded_cons (c : Chunk) (cs : List Chunk) :
    chunksDecoded (c :: cs) = c.decoded ++ chunksDecoded cs := rfl

/-- A chunk adds its code byte and its literals (R66). -/
theorem length_chunksBytes_cons (c : Chunk) (cs : List Chunk) :
    (chunksBytes (c :: cs)).length = c.lits.length + 1 + (chunksBytes cs).length := by
  rw [chunksBytes_cons, List.length_append, Chunk.bytes, List.length_cons]

/-- A sequence of grammar chunks begins with one and goes on with such a sequence. -/
theorem chunksWf_cons (c : Chunk) (cs : List Chunk) : chunksWf (c :: cs) = true ↔ c.wf = true ∧ chunksWf cs = true := by
  simp [chunksWf]

/-- No byte of a sequence of grammar chunks is zero. -/
theorem zero_notMem_chunksBytes (cs : List Chunk) (h : chunksWf cs = true) : 0x00#8 ∉ chunksBytes cs := by
  intro hmem
  obtain ⟨c, hc, hbyte⟩ := List.mem_flatMap.mp hmem
  exact c.zero_notMem_bytes (List.all_eq_true.mp h c hc) hbyte

/-- `WindowFill m n idx lits w`: the `n` window positions from `idx` on take exactly the non-zero literals `lits` and give
the bytes `w`, a zero where the mask bit is 1 and the next literal where it is 0 (R57). -/
inductive WindowFill (m : Bits7) : Nat → Nat → List Byte → List Byte → Prop where
  | done (idx : Nat) : WindowFill m 0 idx [] []
  | zero {n idx : Nat} {lits w : List Byte} (hbit : m.getLsbD idx = true) (h : WindowFill m n (idx + 1) lits w) :
      WindowFill m (n + 1) idx lits (0x00#8 :: w)
  | literal {n idx : Nat} {lits w : List Byte} (x : Byte) (hbit : m.getLsbD idx = false) (hx : x ≠ 0x00#8)
      (h : WindowFill m n (idx + 1) lits w) : WindowFill m (n + 1) idx (x :: lits) (x :: w)

/-- How many of the `n` mask bits from `idx` on are 0. -/
def clearBits (m : Bits7) (n idx : Nat) : Nat := (List.range' idx n).countP (fun i => !m.getLsbD i)

/-- One more position at the front of `clearBits`. -/
theorem clearBits_succ (m : Bits7) (n idx : Nat) :
    clearBits m (n + 1) idx = clearBits m n (idx + 1) + if m.getLsbD idx then 0 else 1 := by
  cases hbit : m.getLsbD idx <;> simp [clearBits, List.range'_succ, hbit]

/-- The bits of a mask that are not 1 are 0. -/
theorem clearBits_window (m : Bits7) : clearBits m 7 0 = 7 - popcount m := by
  have h := List.length_eq_countP_add_countP (fun i => m.getLsbD i) (l := List.range 7)
  simp only [List.length_range, Bool.not_eq_true, Bool.decide_eq_false] at h
  simp only [clearBits, popcount, ← List.range_eq_range', Config.window_eq]
  omega

namespace WindowFill

variable {m : Bits7} {n idx : Nat} {lits w : List Byte}

/-- The bytes are those of `fillWindow`. -/
theorem fillWindow_eq (h : WindowFill m n idx lits w) : fillWindow m n idx lits = w := by
  induction h with
  | done idx => rfl
  | zero hbit _ ih => simp [fillWindow, hbit, ih]
  | literal x hbit _ _ ih => simp [fillWindow, hbit, ih]

/-- As many literals are taken as mask bits are 0 (R57). -/
theorem length_lits (h : WindowFill m n idx lits w) : lits.length = clearBits m n idx := by
  induction h with
  | done idx => rfl
  | zero hbit _ ih => rw [clearBits_succ, ih, if_pos hbit]; rfl
  | literal x hbit _ _ ih => simp [clearBits_succ, ih, hbit]

/-- As many non-zero literals as mask bits are 0 fill the window. -/
theorem of_length (n idx : Nat) (lits : List Byte) (hlen : lits.length = clearBits m n idx) (hlits : 0x00#8 ∉ lits) :
    WindowFill m n idx lits (fillWindow m n idx lits) := by
  induction n generalizing idx lits with
  | zero =>
    obtain rfl : lits = [] := List.eq_nil_of_length_eq_zero hlen
    exact .done idx
  | succ n ih =>
    rw [clearBits_succ] at hlen
    cases hbit : m.getLsbD idx with
    | true =>
      simp only [fillWindow, hbit, if_true]
      exact .zero hbit (ih _ _ (by simpa [hbit] using hlen) hlits)
    | false =>
      cases lits with
      | nil => simp [hbit] at hlen
      | cons x lits =>
        obtain ⟨hx, hrest⟩ := List.ne_and_not_mem_of_not_mem_cons hlits
        simp only [fillWindow, hbit]
        exact .literal x hbit hx.symm (ih _ _ (by simpa [hbit] using hlen) hrest)

/-- A mask that marks the zeros of `w`, and the positions behind `w` as zeros too, takes the non-zero bytes of `w` and gives
`w` padded with zeros (R62, R82). -/
theorem of_bits (n idx : Nat) (w : List Byte) (hlen : w.length ≤ n)
    (hbits : ∀ i < n, m.getLsbD (idx + i) = (w.getD i 0x00#8 == 0x00#8)) :
    WindowFill m n idx (nonZeros w) (w ++ zeros (n - w.length)) := by
  induction n generalizing idx w with
  | zero =>
    obtain rfl : w = [] := List.eq_nil_of_length_eq_zero (Nat.le_zero.mp hlen)
    exact .done idx
  | succ n ih =>
    have hbit : m.getLsbD idx = (w.getD 0 0x00#8 == 0x00#8) := hbits 0 (Nat.succ_pos n)
    cases w with
    | nil => exact .zero hbit (ih (idx + 1) [] (Nat.zero_le n) fun i hi => by
        simpa [Nat.add_right_comm, Nat.add_assoc] using hbits (i + 1) (Nat.succ_lt_succ hi))
    | cons a w =>
      have hrest := ih (idx + 1) w (Nat.le_of_succ_le_succ hlen) fun i hi => by
        simpa [Nat.add_right_comm, Nat.add_assoc] using hbits (i + 1) (Nat.succ_lt_succ hi)
      rw [List.length_cons, Nat.add_sub_add_right, List.cons_append]
      by_cases ha : a = 0x00#8
      · subst ha
        exact .zero hbit hrest
      · have hnz : nonZeros (a :: w) = a :: nonZeros w := List.filter_cons_of_pos (by simpa using ha)
        rw [hnz]
        exact .literal a (hbit.trans (beq_false_of_ne ha)) ha hrest

end WindowFill

/-- A MASK chunk of the grammar fills its window (R57, R66). -/
theorem Chunk.windowFill_of_wf (m : Bits7) (lits : List Byte) (h : (Chunk.mask m lits).wf = true) :
    WindowFill m 7 0 lits (Chunk.mask m lits).decoded := by
  obtain ⟨-, hlen, hlits⟩ := (wf_mask_iff m lits).mp h
  exact .of_length 7 0 lits (hlen.trans (clearBits_window m).symm) hlits

end Sys2Proof.Machine
end

