-- ==== Sys2Proof/Proofs/Chunking.lean ====
section
/-! How `encode` cuts a message (40_encoder.md R84): the recursions of `chunksOf` and `padding` read off once as a
derivation, and what every cut has: chunks of the grammar that stand for the message and its padding. -/

namespace Sys2Proof.Machine

/-- The mask of a sequence marks its zeros, position by position (R62). -/
theorem maskOf_getLsbD (w : List Byte) (i : Nat) (hi : i < 7) :
    (maskOf w).getLsbD i = (w[i]? == some 0x00#8) := by
  induction w generalizing i with
  | nil => simp [maskOf]
  | cons b w ih =>
    rw [maskOf, BitVec.getLsbD_or, BitVec.getLsbD_shiftLeft]
    cases i with
    | zero => by_cases hb : b = 0x00#8 <;> simp [hb]
    | succ i =>
      have htail : (if b = 0x00#8 then 1#7 else 0#7).getLsbD (i + 1) = false := by
        split <;> simp
      rw [htail, Nat.add_sub_cancel, ih i (Nat.lt_of_succ_lt hi)]
      simp [hi]

/-- The mask of a padded window marks the zeros of the window, the pad positions counting as zeros (R82). -/
theorem padMask_getLsbD (w : List Byte) (i : Nat) (hi : i < 7) :
    (maskOf w ||| padBits w.length).getLsbD i = (w.getD i 0x00#8 == 0x00#8) := by
  have hpad : (padBits w.length).getLsbD i = decide (w.length ≤ i) := by
    have hones : (0x7F#7).getLsbD (i - w.length) = true := by
      rw [show 0x7F#7 = BitVec.allOnes 7 from rfl, BitVec.getLsbD_allOnes]
      exact decide_eq_true (by omega)
    rw [padBits, BitVec.getLsbD_shiftLeft, hones]
    rw [Bool.eq_iff_iff]
    simp [hi]
  rw [BitVec.getLsbD_or, maskOf_getLsbD w i hi, hpad]
  rcases Nat.lt_or_ge i w.length with hlt | hge
  · simp [hlt]
  · simp [hge]

/-- A window of up to seven bytes fills from its non-zero bytes, with zeros in the pad positions (R62, R82). -/
theorem windowFill_pad (w : List Byte) (hlen : w.length ≤ 7) :
    WindowFill (maskOf w ||| padBits w.length) 7 0 (nonZeros w) (w ++ zeros (7 - w.length)) :=
  .of_bits 7 0 w hlen fun i hi => by rw [Nat.zero_add]; exact padMask_getLsbD w i hi

/-- The literals of a window's chunk are its non-zero bytes. -/
theorem padChunk_lits (w : List Byte) : (padChunk w).lits = nonZeros w := rfl

/-- A full window has no pad positions: its chunk is the one R84 gives for seven bytes with a zero. -/
theorem padChunk_full (w : List Byte) (hlen : w.length = 7) : padChunk w = .mask (maskOf w) (nonZeros w) := by
  have hpad : padBits 7 = 0#7 := by decide
  rw [padChunk, hlen, hpad, BitVec.or_zero]

/-- The chunk of a window stands for the window and its pad zeros. -/
theorem padChunk_decoded (w : List Byte) (hlen : w.length ≤ 7) : (padChunk w).decoded = w ++ zeros (7 - w.length) :=
  (windowFill_pad w hlen).fillWindow_eq

/-- The non-zero bytes hold no zero. -/
theorem zero_notMem_nonZeros (w : List Byte) : 0x00#8 ∉ nonZeros w := by
  simp [nonZeros]

/-- The chunk of a window is one of the grammar, if its last bytes are pad positions or it holds a zero: its mask is not
0 (R57). -/
theorem padChunk_wf (w : List Byte) (hlen : w.length ≤ 7) (hzero : w.length < 7 ∨ 0x00#8 ∈ w) :
    (padChunk w).wf = true := by
  refine (Chunk.wf_mask_iff _ _).mpr ⟨fun hmask => ?_, ?_, zero_notMem_nonZeros w⟩
  · have hbit : ∃ i < 7, w.getD i 0x00#8 = 0x00#8 := by
      rcases hzero with hpad | hmem
      · exact ⟨6, by decide, List.getD_eq_default w _ (Nat.le_of_lt_succ hpad)⟩
      · obtain ⟨i, hi, hget⟩ := List.mem_iff_getElem.mp hmem
        exact ⟨i, by omega, by rw [List.getD_eq_getElem w _ hi, hget]⟩
    obtain ⟨i, hi, hget⟩ := hbit
    have hset := padMask_getLsbD w i hi
    rw [hmask, hget] at hset
    simp at hset
  · rw [(windowFill_pad w hlen).length_lits, clearBits_window]

/-- A maximal run holds no zero (R84). -/
theorem zero_notMem_take_runLen (b : List Byte) : 0x00#8 ∉ b.take (runLen b) := by
  intro hmem
  have hprefix : b.take (runLen b) <+: b.takeWhile (· ≠ 0x00#8) :=
    List.prefix_of_prefix_length_le (List.take_prefix _ _) (List.takeWhile_prefix _)
      ((List.length_take_le _ _).trans (Nat.min_le_left _ _))
  simpa using List.mem_takeWhile_imp (hprefix.subset hmem)

/-- Seven bytes without a zero begin a run of at least seven. -/
theorem seven_le_runLen (b : List Byte) (hlen : 7 ≤ b.length) (hzero : 0x00#8 ∉ b.take 7) : 7 ≤ runLen b := by
  have hwindow : b.take 7 <+: b.takeWhile (· ≠ 0x00#8) := by
    conv_rhs => rw [← List.take_append_drop 7 b]
    rw [List.takeWhile_append_of_pos fun x hx => by simpa using ne_of_mem_of_not_mem hx hzero]
    exact List.prefix_append _ _
  have hle := hwindow.length_le
  rw [List.length_take, Nat.min_eq_left hlen] at hle
  exact Nat.le_min.mpr ⟨hle, by decide⟩

/-- A run that is neither of the longest kind nor ends with the message ends at a zero. -/
theorem eq_run_append_zero (b : List Byte) (hlong : runLen b ≠ 134) (hlt : runLen b < b.length) :
    b = b.take (runLen b) ++ 0x00#8 :: b.drop (runLen b + 1) := by
  have hrun : runLen b = (b.takeWhile (· ≠ 0x00#8)).length := by
    simp only [runLen, Config.runLong_eq] at hlong ⊢
    omega
  have hsplit := List.takeWhile_append_dropWhile (p := (· ≠ 0x00#8)) (l := b)
  cases hdrop : b.dropWhile (· ≠ 0x00#8) with
  | nil =>
    rw [hdrop, List.append_nil] at hsplit
    rw [hrun, hsplit] at hlt
    exact absurd hlt (Nat.lt_irrefl _)
  | cons x rest =>
    have hne : b.dropWhile (· ≠ 0x00#8) ≠ [] := by rw [hdrop]; exact List.cons_ne_nil x rest
    have hx := List.head_dropWhile_not (· ≠ 0x00#8) hne
    simp only [hdrop, List.head_cons, decide_eq_false_iff_not, not_not] at hx
    rw [hdrop, hx] at hsplit
    have hrest : b.drop (runLen b) = 0x00#8 :: rest := by
      have h := List.drop_left (l₁ := b.takeWhile (· ≠ 0x00#8)) (l₂ := 0x00#8 :: rest)
      rwa [hsplit, ← hrun] at h
    rw [← List.drop_drop, hrest, List.drop_one, List.tail_cons, ← hrest, List.take_append_drop]

/-- `Chunking b cs k`: R84 cuts the message `b` into the chunks `cs`, and R114 gives it the padding `k`. One constructor per
case of R84; the cases of seven bytes and of fewer give `padChunk` of the window. -/
inductive Chunking : List Byte → List Chunk → Nat → Prop where
  | nil : Chunking [] [] 0
  | partialWindow (w : List Byte) (hlo : 1 ≤ w.length) (hhi : w.length ≤ 6) : Chunking w [padChunk w] (7 - w.length)
  | window (w : List Byte) (hlen : w.length = 7) (hzero : 0x00#8 ∈ w) {b : List Byte} {cs : List Chunk} {k : Nat}
      (h : Chunking b cs k) : Chunking (w ++ b) (padChunk w :: cs) k
  | run134 (l : List Byte) (hlen : l.length = 134) (hl : 0x00#8 ∉ l) {b : List Byte} {cs : List Chunk} {k : Nat}
      (h : Chunking b cs k) : Chunking (l ++ b) (.run134 l :: cs) k
  | run (l : List Byte) (hlo : 7 ≤ l.length) (hhi : l.length ≤ 133) (hl : 0x00#8 ∉ l) {b : List Byte} {cs : List Chunk}
      {k : Nat} (h : Chunking b cs k) : Chunking (l ++ 0x00#8 :: b) (.run l :: cs) k
  | lastRun (l : List Byte) (hlo : 7 ≤ l.length) (hhi : l.length ≤ 133) (hl : 0x00#8 ∉ l) : Chunking l [.run l] 1

/-- The functions `chunksOf` and `padding` cut every message so. -/
theorem chunking (b : List Byte) : Chunking b (chunksOf b) (padding b) := by
  induction hn : b.length using Nat.strong_induction_on generalizing b with
  | _ n ih =>
  have hrest (j : Nat) (hj : 0 < j) (h0 : b ≠ []) :
      Chunking (b.drop j) (chunksOf (b.drop j)) (padding (b.drop j)) := by
    have := List.length_pos_of_ne_nil h0
    exact ih _ (by rw [List.length_drop]; omega) _ rfl
  have hle := runLen_le b
  have hlong := runLen_le_long b
  have hrun := zero_notMem_take_runLen b
  have htake : (b.take (runLen b)).length = runLen b := List.length_take_of_le hle
  rw [chunksOf_cases, padding_cases]
  simp only [Config.window_eq, Config.runLong_eq] at hlong ⊢
  split_ifs with hnil hshort hzero h134 hlt
  · rw [hnil]; exact .nil
  · exact .partialWindow b (List.length_pos_of_ne_nil hnil) (Nat.le_of_lt_succ hshort)
  · have hlen : (b.take 7).length = 7 := List.length_take_of_le (Nat.not_lt.mp hshort)
    have h := Chunking.window (b.take 7) hlen hzero (hrest 7 (by decide) hnil)
    rwa [List.take_append_drop, padChunk_full _ hlen] at h
  · rw [h134] at htake hrun
    have h := Chunking.run134 (b.take 134) htake hrun (hrest 134 (by decide) hnil)
    rwa [List.take_append_drop] at h
  · have hseven := seven_le_runLen b (Nat.not_lt.mp hshort) hzero
    have h := Chunking.run (b.take (runLen b)) (by omega) (by omega) hrun (hrest (runLen b + 1) (Nat.succ_pos _) hnil)
    rwa [← eq_run_append_zero b h134 hlt] at h
  · have hseven := seven_le_runLen b (Nat.not_lt.mp hshort) hzero
    have hall : b.take (runLen b) = b := List.take_of_length_le (Nat.not_lt.mp hlt)
    rw [hall] at hrun htake ⊢
    exact .lastRun b (by omega) (by omega) hrun

namespace Chunking

variable {b : List Byte} {cs : List Chunk} {k : Nat}

/-- R114: the padding is at most 6. -/
theorem padding_le (h : Chunking b cs k) : k ≤ 6 := by
  induction h with
  | nil => decide
  | partialWindow w hlo hhi => omega
  | window w hlen hzero _ ih => exact ih
  | run134 l hlen hl _ ih => exact ih
  | run l hlo hhi hl _ ih => exact ih
  | lastRun l hlo hhi hl => decide

/-- A message is cut into chunks of the grammar. -/
theorem chunksWf_eq_true (h : Chunking b cs k) : chunksWf cs = true := by
  induction h with
  | nil => rfl
  | partialWindow w hlo hhi => exact (chunksWf_cons _ _).mpr ⟨padChunk_wf w (by omega) (.inl (by omega)), rfl⟩
  | window w hlen hzero _ ih => exact (chunksWf_cons _ _).mpr ⟨padChunk_wf w (by omega) (.inr hzero), ih⟩
  | run134 l hlen hl _ ih => exact (chunksWf_cons _ _).mpr ⟨(Chunk.wf_run134_iff l).mpr ⟨hlen, hl⟩, ih⟩
  | run l hlo hhi hl _ ih => exact (chunksWf_cons _ _).mpr ⟨(Chunk.wf_run_iff l).mpr ⟨hlo, hhi, hl⟩, ih⟩
  | lastRun l hlo hhi hl => exact (chunksWf_cons _ _).mpr ⟨(Chunk.wf_run_iff l).mpr ⟨hlo, hhi, hl⟩, rfl⟩

/-- The chunks of a message stand for it and its padding. -/
theorem chunksDecoded_eq (h : Chunking b cs k) : chunksDecoded cs = b ++ zeros k := by
  induction h with
  | nil => rfl
  | partialWindow w hlo hhi => rw [chunksDecoded_cons, padChunk_decoded w (by omega)]; exact List.append_nil _
  | window w hlen hzero _ ih =>
    rw [chunksDecoded_cons, ih, padChunk_decoded w (by omega), hlen, List.append_assoc, List.append_assoc]; rfl
  | run134 l hlen hl _ ih => rw [chunksDecoded_cons, ih, List.append_assoc]; rfl
  | run l hlo hhi hl _ ih =>
    rw [chunksDecoded_cons, ih, Chunk.decoded, List.append_assoc, List.append_assoc]; rfl
  | lastRun l hlo hhi hl => rw [chunksDecoded_cons, chunksDecoded_nil, List.append_nil]; rfl

/-- R112: the chunks take at most one byte more than the message for each 134 bytes of it, begun or whole. -/
theorem length_chunksBytes_le (h : Chunking b cs k) :
    (chunksBytes cs).length ≤ b.length + (b.length + 133) / 134 := by
  induction h with
  | nil => exact Nat.zero_le _
  | partialWindow w hlo hhi =>
    have hlits : (nonZeros w).length ≤ w.length := List.length_filter_le _ w
    rw [length_chunksBytes_cons, padChunk_lits, chunksBytes_nil, List.length_nil]
    omega
  | window w hlen hzero _ ih =>
    have hlits : (nonZeros w).length < w.length :=
      List.length_filter_lt_length_iff_exists.mpr ⟨0x00#8, hzero, by decide⟩
    rw [length_chunksBytes_cons, padChunk_lits, List.length_append]
    omega
  | run134 l hlen hl _ ih =>
    rw [length_chunksBytes_cons, Chunk.lits, List.length_append]
    omega
  | run l hlo hhi hl _ ih =>
    rw [length_chunksBytes_cons, Chunk.lits, List.length_append, List.length_cons]
    omega
  | lastRun l hlo hhi hl =>
    rw [length_chunksBytes_cons, Chunk.lits, chunksBytes_nil, List.length_nil]
    omega

/-- R112: a message without zeros reaches that bound. -/
theorem length_chunksBytes_eq (h : Chunking b cs k) (hb : 0x00#8 ∉ b) :
    (chunksBytes cs).length = b.length + (b.length + 133) / 134 := by
  induction h with
  | nil => rfl
  | partialWindow w hlo hhi =>
    have hlits : nonZeros w = w := List.filter_eq_self.mpr fun x hx => by simpa using ne_of_mem_of_not_mem hx hb
    rw [length_chunksBytes_cons, padChunk_lits, hlits, chunksBytes_nil, List.length_nil]
    omega
  | window w hlen hzero _ ih => exact absurd (List.mem_append_left _ hzero) hb
  | run134 l hlen hl _ ih =>
    have hrest := ih fun hmem => hb (List.mem_append_right l hmem)
    rw [length_chunksBytes_cons, Chunk.lits, List.length_append]
    omega
  | run l hlo hhi hl _ ih => exact absurd (List.mem_append_right l List.mem_cons_self) hb
  | lastRun l hlo hhi hl =>
    rw [length_chunksBytes_cons, Chunk.lits, chunksBytes_nil, List.length_nil]
    omega

end Chunking

end Sys2Proof.Machine
end

