-- ==== Sys2Proof/Proofs/DecodeFrames.lean ====
section
/-! The function `decode` (41_decoder.md R104) on the grammar's frames: each chunk is copied as what it stands for, and a
frame gives what its chunks stand for, whatever follows it. -/

namespace Sys2Proof.Machine

/-- A byte with bit 7 clear is read as a window of its seven low bits (R104). -/
theorem copyChunk_maskByte (m : Bits7) (f acc : List Byte) : copyChunk (maskByte m) f acc = copyWindow m 7 f acc := by
  simp [copyChunk, maskByte_ne_ff]

/-- A RUN byte is read as its run and the implied zero (R104). -/
theorem copyChunk_runByte (n : Bits7) (f acc : List Byte) (h : n ≠ 127#7) :
    copyChunk (runByte n) f acc = (copyLits (runLength n) f acc).thenZero := by
  simp [copyChunk, (runByte_eq_ff_iff n).not.mpr h]

/-- 0xFF is read as 134 literals (R104). -/
theorem copyChunk_ff (f acc : List Byte) : copyChunk 0xFF#8 f acc = copyLits 134 f acc := if_pos rfl

/-- Literals that fill a window are copied as the window, and what follows them is left (R104). -/
theorem copyWindow_append {m : Bits7} {n idx : Nat} {lits w : List Byte} (h : WindowFill m n idx lits w)
    (hidx : idx + n = 7) (f acc : List Byte) : copyWindow m n (lits ++ f) acc = .more f (acc ++ w) := by
  induction h generalizing acc with
  | done idx => simp [copyWindow]
  | @zero n idx lits w hbit _ ih =>
    have hpos : Config.window - (n + 1) = idx := by rw [Config.window_eq]; omega
    rw [copyWindow, hpos, if_pos hbit, ih (by omega), List.append_assoc, List.singleton_append]
  | @literal n idx lits w x hbit hx _ ih =>
    have hpos : Config.window - (n + 1) = idx := by rw [Config.window_eq]; omega
    have hcopy : copyLits 1 (x :: lits ++ f) acc = .more (lits ++ f) (acc ++ [x]) :=
      copyLits_append [x] (lits ++ f) acc (by simpa using hx.symm)
    rw [copyWindow, hpos, if_neg (by simp [hbit]), hcopy]
    simp only [ih (by omega), List.append_assoc, List.singleton_append]

/-- The literals of a grammar chunk are copied as what the chunk stands for, and what follows them is left (R66, R104). -/
theorem copyChunk_code (c : Chunk) (hwf : c.wf = true) (f acc : List Byte) :
    copyChunk c.code (c.lits ++ f) acc = .more f (acc ++ c.decoded) := by
  cases c with
  | mask m lits => exact (copyChunk_maskByte m _ acc).trans (copyWindow_append (Chunk.windowFill_of_wf m lits hwf) rfl f acc)
  | run lits =>
    obtain ⟨hlo, hhi, hlits⟩ := (Chunk.wf_run_iff lits).mp hwf
    rw [Chunk.code, Chunk.lits, runCode_eq_runByte, copyChunk_runByte _ _ _ (runField_ne_127 _ hlo hhi),
      runLength_ofNat _ hlo (by omega), copyLits_append lits f acc hlits, Chunk.decoded, ← List.append_assoc]
    rfl
  | run134 lits =>
    obtain ⟨hlen, hlits⟩ := (Chunk.wf_run134_iff lits).mp hwf
    exact (copyChunk_ff _ acc).trans (hlen ▸ copyLits_append lits f acc hlits)

/-- From a code position a grammar frame gives what its chunks stand for and leaves what follows it (R70, R104). -/
theorem goFrame_frameBytes (cs : List Chunk) (hwf : chunksWf cs = true) (g acc : List Byte) :
    goFrame (frameBytes cs ++ g) acc = .ok (acc ++ chunksDecoded cs) g := by
  induction cs generalizing acc with
  | nil => rw [chunksDecoded_nil, List.append_nil]; exact goFrame_cons 0x00#8 g acc
  | cons c cs ih =>
    obtain ⟨hc, hcs⟩ := (chunksWf_cons c cs).mp hwf
    have hbytes : frameBytes (c :: cs) ++ g = c.code :: (c.lits ++ (frameBytes cs ++ g)) := by
      simp [frameBytes, chunksBytes_cons, Chunk.bytes]
    rw [hbytes, goFrame_cons, if_neg (c.code_ne_zero hc), copyChunk_code c hc]
    simp only [ih hcs, chunksDecoded_cons, List.append_assoc]

/-- `decode` gives what a frame's chunks stand for and leaves what follows the frame (R70, R104). -/
theorem decodeFrame_frameBytes (cs : List Chunk) (hwf : chunksWf cs = true) (g : List Byte) :
    decodeFrame (frameBytes cs ++ g) = .ok (chunksDecoded cs) g :=
  goFrame_frameBytes cs hwf g []

end Sys2Proof.Machine
end

