-- ==== Sys2Proof/Proofs/DecoderFrames.lean ====
section
/-! The decoder machine on the grammar's frames (41_decoder.md R91 to R100): `PUT`s of bytes as a fold of `readByte`, then one
rule per kind of chunk, and a whole frame. -/

namespace Sys2Proof.Machine

/-- The state after the decoder has read the bytes `f` one after another. -/
def readBytes (f : List Byte) (s : State) : State := f.foldl (fun t c => readByte c t) s

@[simp] theorem readBytes_nil (s : State) : readBytes [] s = s := rfl

theorem readBytes_cons (c : Byte) (f : List Byte) (s : State) : readBytes (c :: f) s = readBytes f (readByte c s) := rfl

theorem readBytes_append (f g : List Byte) (s : State) : readBytes (f ++ g) s = readBytes g (readBytes f s) :=
  List.foldl_append

/-- Reading a byte leaves the surroundings' moves, whatever they are. -/
theorem readByte_withMoves (c : Byte) (s : State) (ms : List Move) :
    readByte c { s with moves := ms } = { readByte c s with moves := ms } := by
  obtain ⟨d, out, hread⟩ := readByte_shape c s
  rw [hread s rfl, hread { s with moves := ms } rfl]

/-- A run over the `PUT`s of some bytes reads these bytes (R91). -/
theorem runFor_decPuts (f : List Byte) (s : State) (more : List Move) (h : s.moves = decPuts f ++ more) :
    runFor f.length s = .next (readBytes f { s with moves := more }) := by
  induction f generalizing s with
  | nil =>
    obtain rfl : s.moves = more := h
    rfl
  | cons c f ih =>
    have hstep : step s = .next (readByte c { s with moves := decPuts f ++ more }) := step_decPut s c _ h
    have hmoves : (readByte c { s with moves := decPuts f ++ more }).moves = decPuts f ++ more := by
      rw [readByte_withMoves]
    rw [List.length_cons, runFor_succ _ _ _ hstep, ih _ hmoves, readBytes_cons, ← readByte_withMoves]

/-- In mode `CODE` a byte is read as a code byte (R91). -/
theorem readByte_code (c : Byte) (s : State) (h : s.dec.ctl = .code) : readByte c s = readCode c s := by
  simp only [readByte, h]

/-- 0x00 in a code position ends the frame (R92). -/
theorem readByte_term (s : State) (h : s.dec.ctl = .code) : readByte 0x00#8 s = endFrame s :=
  readByte_code 0x00#8 s h

/-- A MASK code byte starts its window (R93). -/
theorem readByte_maskByte (m : Bits7) (s : State) (h : s.dec.ctl = .code) (hm : m ≠ 0#7) :
    readByte (maskByte m) s = startMask m s := by
  rw [readByte_code _ s h]
  simp [readCode, maskByte_eq_zero_iff, hm, maskByte_ne_ff]

/-- A RUN code byte awaits its run, with an implied zero (R95). -/
theorem readByte_runByte (n : Bits7) (s : State) (h : s.dec.ctl = .code) (hn : n ≠ 127#7) :
    readByte (runByte n) s = startLit (runLength n) true s := by
  rw [readByte_code _ s h]
  simp [readCode, runByte_ne_zero, runByte_eq_ff_iff, hn]

/-- 0xFF in a code position awaits 134 literals, without an implied zero (R96). -/
theorem readByte_ff (s : State) (h : s.dec.ctl = .code) : readByte 0xFF#8 s = startLit 134 false s :=
  readByte_code 0xFF#8 s h

/-- A non-zero byte of a run is its next literal (R99). -/
theorem readByte_lit (x : Byte) (cnt : Nat) (az : Bool) (s : State) (h : s.dec.ctl = .lit cnt az) (hx : x ≠ 0x00#8) :
    readByte x s = takeRunLiteral x cnt az s := by
  simp only [readByte, h, readRunLiteral, hx, if_false]

/-- A non-zero byte of a window is its next literal (R100). -/
theorem readByte_mask (x : Byte) (m : Bits7) (idx : Nat) (s : State) (h : s.dec.ctl = .mask m idx) (hx : x ≠ 0x00#8) :
    readByte x s = takeMaskLiteral x m idx s := by
  simp only [readByte, h, readMaskLiteral, hx, if_false]

/-- The bytes a run ends with: the implied zero of a RUN, nothing for RUN134 (R95, R96). -/
def impliedZero (az : Bool) : List Byte := if az then [0x00#8] else []

theorem impliedZero_false : impliedZero false = [] := rfl

/-- The literals of a run are emitted as they are, then its implied zero, and a code byte is awaited (R99). -/
theorem readBytes_lits (x : List Byte) (az : Bool) (s : State) (hne : x ≠ []) (hx : 0x00#8 ∉ x)
    (h : s.dec.ctl = .lit x.length az) :
    readBytes x s =
      { s with dec := ⟨.code, s.dec.inframe⟩, decOut := s.decOut ++ dataEvents (x ++ impliedZero az) } := by
  induction x generalizing s with
  | nil => exact absurd rfl hne
  | cons a x ih =>
    obtain ⟨ha, hx⟩ := List.ne_and_not_mem_of_not_mem_cons hx
    rw [readBytes_cons, readByte_lit a _ az s h ha.symm, takeRunLiteral_eq a (a :: x).length az s (Nat.succ_pos _)]
    cases x with
    | nil => cases az <;> rfl
    | cons y x =>
      rw [if_neg (by simp), ih _ (List.cons_ne_nil y x) hx rfl]
      simp [dataEvents]

/-- At the end of the window `drain` stops, and a code byte is awaited (R94). -/
theorem drain_end (m : Bits7) (s : State) : drain m 7 s = { s with dec := ⟨.code, s.dec.inframe⟩ } := by
  have hstop : skipZeros m 7 7 = 7 := if_neg (by simp)
  rw [drain_eq, Config.window_eq, hstop]
  simp [ctlAt, zeros]

/-- At a mask bit 0 `drain` stops, and the literal of the position is awaited (R94). -/
theorem drain_literal (m : Bits7) (idx : Nat) (s : State) (hlt : idx < 7) (hbit : m.getLsbD idx = false) :
    drain m idx s = { s with dec := ⟨.mask m idx, s.dec.inframe⟩ } := by
  have hstop : skipZeros m 7 idx = idx := if_neg (by simp [hbit])
  rw [drain_eq, Config.window_eq, hstop, Nat.sub_self]
  simp [ctlAt, zeros, Nat.ne_of_lt hlt]

/-- At a mask bit 1 `drain` emits a zero and goes on (R94). -/
theorem drain_zero (m : Bits7) (idx : Nat) (s : State) (hlt : idx < 7) (hbit : m.getLsbD idx = true) :
    drain m idx s = drain m (idx + 1) (s.emitEvents [.data 0x00#8]) := by
  have hle := le_skipZeros m 7 (idx + 1)
  have hskip : skipZeros m 7 idx = skipZeros m 7 (idx + 1) := by
    refine skipZeros_eq m 7 idx _ (by simp) (by omega) (skipZeros_le m 7 (idx + 1) hlt) (fun j hj hj' => ?_)
      (skipZeros_stops m 7 (idx + 1) (by simp))
    rcases Nat.eq_or_lt_of_le hj with rfl | hj
    · exact hbit
    · exact skipZeros_passed m 7 (idx + 1) j hj hj'
  have hsub : skipZeros m 7 (idx + 1) - idx = skipZeros m 7 (idx + 1) - (idx + 1) + 1 := by omega
  rw [drain_eq, drain_eq, Config.window_eq, hskip, hsub, zeros, List.replicate_succ, List.map_cons,
    State.emitEvents_decOut, List.append_assoc]
  rfl

/-- Literals that fill the rest of a window: its bytes are emitted, and a code byte is awaited (R93, R94, R100). -/
theorem readBytes_window {m : Bits7} {n idx : Nat} {lits w : List Byte} (h : WindowFill m n idx lits w)
    (hidx : idx + n = 7) (s : State) :
    readBytes lits (drain m idx s) =
      { s with dec := ⟨.code, s.dec.inframe⟩, decOut := s.decOut ++ dataEvents w } := by
  induction h generalizing s with
  | done idx =>
    obtain rfl : idx = 7 := hidx
    rw [readBytes_nil, drain_end]
    simp [dataEvents]
  | zero hbit _ ih =>
    rw [drain_zero _ _ s (by omega) hbit, ih (by omega)]
    simp [dataEvents, State.emitEvents]
  | literal x hbit hx _ ih =>
    rw [drain_literal _ _ s (by omega) hbit, readBytes_cons, readByte_mask x _ _ _ rfl hx, takeMaskLiteral, ih (by omega)]
    simp [dataEvents, State.emitEvents]

/-- From a code position the bytes of a grammar chunk are read as what it stands for, and a code byte is awaited (R93 to
R100). -/
theorem readBytes_chunk (c : Chunk) (s : State) (hwf : c.wf = true) (h : s.dec.ctl = .code) :
    readBytes c.bytes s = { s with dec := ⟨.code, true⟩, decOut := s.decOut ++ dataEvents c.decoded } := by
  rw [Chunk.bytes, readBytes_cons]
  cases c with
  | mask m lits =>
    obtain ⟨hm, -, -⟩ := (Chunk.wf_mask_iff m lits).mp hwf
    rw [Chunk.code, readByte_maskByte m s h hm]
    exact readBytes_window (Chunk.windowFill_of_wf m lits hwf) rfl _
  | run lits =>
    obtain ⟨hlo, hhi, hlits⟩ := (Chunk.wf_run_iff lits).mp hwf
    rw [Chunk.code, runCode_eq_runByte, readByte_runByte _ s h (runField_ne_127 _ hlo hhi),
      runLength_ofNat _ hlo (by omega)]
    exact readBytes_lits lits true _ (List.ne_nil_of_length_pos (by omega)) hlits rfl
  | run134 lits =>
    obtain ⟨hlen, hlits⟩ := (Chunk.wf_run134_iff lits).mp hwf
    have hne : lits ≠ [] := List.ne_nil_of_length_pos (by omega)
    rw [Chunk.code, readByte_ff s h, ← hlen, Chunk.lits, readBytes_lits lits false _ hne hlits rfl, impliedZero_false,
      List.append_nil]
    rfl

/-- From a code position a grammar frame is read as what its chunks stand for, then `END(OK)`, and the decoder is at a frame
boundary (R70, R92). -/
theorem readBytes_frameBytes (cs : List Chunk) (s : State) (hwf : chunksWf cs = true) (h : s.dec.ctl = .code) :
    readBytes (frameBytes cs) s =
      { s with dec := DecState.reset, decOut := s.decOut ++ okEvents (chunksDecoded cs) } := by
  induction cs generalizing s with
  | nil => exact readByte_term s h
  | cons c cs ih =>
    obtain ⟨hc, hcs⟩ := (chunksWf_cons c cs).mp hwf
    have hbytes : frameBytes (c :: cs) = c.bytes ++ frameBytes cs := List.append_assoc _ _ _
    rw [hbytes, readBytes_append, readBytes_chunk c s hc h, ih _ hcs rfl]
    simp [chunksDecoded_cons, okEvents, dataEvents]

end Sys2Proof.Machine
end

