-- ==== Sys2Proof/Proofs/EncodedFrames.lean ====
section
/-! The laws of encoded frames (42_laws.md R110 to R113), from how a message is cut (`chunking`) and what a decoder makes of a
frame of the grammar. -/

namespace Sys2Proof.Machine

/-- The frame of a message decodes to the message and its padding, and what follows the frame is left. -/
theorem decodeFrame_encodeMessage (b g : List Byte) :
    decodeFrame (encodeMessage b ++ g) = .ok (b ++ zeros (padding b)) g := by
  rw [← (chunking b).chunksDecoded_eq]
  exact decodeFrame_frameBytes (chunksOf b) (chunking b).chunksWf_eq_true g

/-- From a code position the decoder reads the frame of a message as the message and its padding, then `END(OK)`. -/
theorem readBytes_encodeMessage (b : List Byte) (s : State) (h : s.dec.ctl = .code) :
    readBytes (encodeMessage b) s =
      { s with dec := DecState.reset, decOut := s.decOut ++ okEvents (b ++ zeros (padding b)) } := by
  rw [← (chunking b).chunksDecoded_eq]
  exact readBytes_frameBytes (chunksOf b) s (chunking b).chunksWf_eq_true h

/-- Settles O46: `padding b` zeros, for the function by `decodeFrame_encodeMessage` and for the machine by
`readBytes_encodeMessage`. -/
theorem roundTripWithBoundedPadding : Obligations.RoundTripWithBoundedPadding := by
  refine fun b => ⟨padding b, (chunking b).padding_le, ?_, fun s more hdec hmoves => ?_⟩
  · simpa only [List.append_nil] using decodeFrame_encodeMessage b []
  · rw [runFor_decPuts _ s more hmoves, readBytes_encodeMessage b _ (by simp [hdec]), ← hdec]

/-- Settles O48: bound and equality hold for every cut of a message; the terminator is the one byte more. -/
theorem overheadBound : Obligations.OverheadBound := by
  intro b
  have hlen : (encodeMessage b).length = (chunksBytes (chunksOf b)).length + 1 := List.length_append
  refine ⟨?_, fun hb => ?_, by decide⟩
  · have hle := (chunking b).length_chunksBytes_le
    omega
  · have heq := (chunking b).length_chunksBytes_eq hb
    omega

/-- Settles O47: the frame's chunks are of the grammar, and no byte of such a chunk is zero. -/
theorem frameHasOneZeroAtTheEnd : Obligations.FrameHasOneZeroAtTheEnd :=
  fun b => ⟨chunksBytes (chunksOf b), rfl, zero_notMem_chunksBytes _ (chunking b).chunksWf_eq_true⟩

/-- Settles O49: the empty message has no chunk, and the frame of no chunk decodes to nothing. -/
theorem emptyMessage : Obligations.EmptyMessage :=
  ⟨rfl, decodeFrame_frameBytes [] rfl []⟩

end Sys2Proof.Machine
end

