-- ==== Sys2Proof/Proofs/ResetState.lean ====
section
/-! The table of reset values (70_reset_and_hazards.md R147): what `State.reset` holds, field by field and register by
register. -/

namespace Sys2Proof.Machine

@[simp] theorem State.reset_enc : State.reset.enc = EncState.reset := rfl
@[simp] theorem State.reset_dec : State.reset.dec = DecState.reset := rfl
@[simp] theorem State.reset_encOut : State.reset.encOut = [] := rfl
@[simp] theorem State.reset_decOut : State.reset.decOut = [] := rfl

/-- An entry of `enc.buf` holds no value exactly when it lies past the literals held (R21, R22). -/
theorem EncState.buf_eq_none_iff (e : EncState) (i : Nat) : e.buf i = none ↔ e.lits.length ≤ i :=
  List.getElem?_eq_none_iff

/-- With no literal held, no entry of `enc.buf` is valid (R33). -/
@[simp] theorem EncState.reset_buf (i : Nat) : EncState.reset.buf i = none :=
  (EncState.buf_eq_none_iff EncState.reset i).mpr (Nat.zero_le i)

/-! In mode `CODE` the registers of the two literal modes hold no value (R25, R26). -/

@[simp] theorem Ctl.code_mode : Ctl.code.mode = 0#2 := rfl
@[simp] theorem Ctl.code_cnt : Ctl.code.cnt = none := rfl
@[simp] theorem Ctl.code_az : Ctl.code.az = none := rfl
@[simp] theorem Ctl.code_maskReg : Ctl.code.maskReg = none := rfl
@[simp] theorem Ctl.code_idx : Ctl.code.idx = none := rfl

/-- Settles O1, one row of R147's table after the other: the encoder's registers, the decoder's, the output ports. -/
theorem resetStateHoldsTheSpecValues : Obligations.ResetStateHoldsTheSpecValues := by
  unfold Obligations.ResetStateHoldsTheSpecValues
  rw [State.reset_enc, State.reset_dec, DecState.reset_ctl]
  exact ⟨EncState.reset_run, EncState.reset_zeros, EncState.reset_buf,
    Ctl.code_mode, DecState.reset_inframe, Ctl.code_cnt, Ctl.code_az, Ctl.code_maskReg, Ctl.code_idx,
    State.reset_encOut, State.reset_decOut⟩

end Sys2Proof.Machine
end

