-- ==== Sys2Proof/Proofs/Blocks.lean ====
section
/-! The blocks of a message (42_laws.md R124): a chunk of the grammar is determined by the bytes it stands for, `encode` cuts
those bytes off the front of any message as that chunk (40_encoder.md R84), and so the laws of R115 to R120 follow. -/

namespace Sys2Proof.Machine

theorem nonZeros_cons_of_ne (x : Byte) (w : List Byte) (hx : x ≠ 0x00#8) : nonZeros (x :: w) = x :: nonZeros w :=
  List.filter_cons_of_pos (by simpa using hx)

/-- A sequence without a zero is its own non-zero bytes. -/
theorem nonZeros_eq_self (w : List Byte) (hw : 0x00#8 ∉ w) : nonZeros w = w :=
  List.filter_eq_self.mpr fun x hx => by simpa using ne_of_mem_of_not_mem hx hw

namespace WindowFill

variable {m : Bits7} {n idx : Nat} {lits w : List Byte}

/-- A window of `n` positions gives `n` bytes. -/
theorem length_eq (h : WindowFill m n idx lits w) : w.length = n := by
  induction h with
  | done idx => rfl
  | zero hbit _ ih => rw [List.length_cons, ih]
  | literal x hbit hx _ ih => rw [List.length_cons, ih]

/-- The literals taken are the non-zero bytes given. -/
theorem nonZeros_eq (h : WindowFill m n idx lits w) : nonZeros w = lits := by
  induction h with
  | done idx => rfl
  | zero hbit _ ih => exact ih
  | literal x hbit hx _ ih =>
    rw [nonZeros_cons_of_ne x _ hx, ih]

/-- The mask bits mark the zeros of the bytes given. -/
theorem getLsbD_eq (h : WindowFill m n idx lits w) (i : Nat) (hi : i < n) :
    m.getLsbD (idx + i) = (w[i]? == some 0x00#8) := by
  induction h generalizing i with
  | done idx => omega
  | zero hbit _ ih =>
    cases i with
    | zero => simpa using hbit
    | succ i => simpa [Nat.add_right_comm, Nat.add_assoc] using ih i (by omega)
  | literal x hbit hx _ ih =>
    cases i with
    | zero => simpa [beq_false_of_ne hx] using hbit
    | succ i => simpa [Nat.add_right_comm, Nat.add_assoc] using ih i (by omega)

/-- A whole window determines its mask (R62). -/
theorem maskOf_eq (h : WindowFill m 7 0 lits w) : maskOf w = m := by
  refine BitVec.eq_of_getLsbD_eq fun i hi => ?_
  rw [maskOf_getLsbD w i hi, ← h.getLsbD_eq i hi, Nat.zero_add]

end WindowFill

/-- A mask that is not 0 has a bit that is 1. -/
theorem exists_getLsbD_of_ne_zero (m : Bits7) (h : m ≠ 0#7) : ∃ i < 7, m.getLsbD i = true := by
  by_contra hno
  push Not at hno
  exact h (BitVec.eq_of_getLsbD_eq fun i hi => by simpa using hno i hi)

/-- A MASK chunk of the grammar stands for seven bytes, a zero among them, and is the chunk R84 gives them. -/
theorem Chunk.mask_block (m : Bits7) (lits : List Byte) (h : (Chunk.mask m lits).wf = true) :
    (Chunk.mask m lits).decoded.length = 7 ∧ 0x00#8 ∈ (Chunk.mask m lits).decoded ∧
      padChunk (Chunk.mask m lits).decoded = .mask m lits := by
  have hfill := windowFill_of_wf m lits h
  obtain ⟨i, hi, hbit⟩ := exists_getLsbD_of_ne_zero m ((wf_mask_iff m lits).mp h).1
  have hzero := hfill.getLsbD_eq i hi
  rw [Nat.zero_add, hbit] at hzero
  refine ⟨hfill.length_eq, List.mem_of_getElem? (eq_of_beq hzero.symm), ?_⟩
  rw [padChunk_full _ hfill.length_eq, hfill.maskOf_eq, hfill.nonZeros_eq]

/-- Seven bytes with a zero are cut off as their window (R84). -/
theorem chunksOf_window (w b : List Byte) (hlen : w.length = 7) (hzero : 0x00#8 ∈ w) :
    chunksOf (w ++ b) = padChunk w :: chunksOf b ∧ padding (w ++ b) = padding b := by
  have hne : w ++ b ≠ [] := List.append_ne_nil_of_left_ne_nil (List.ne_nil_of_mem hzero) b
  have hlong : ¬ (w ++ b).length < 7 := by rw [List.length_append]; omega
  rw [chunksOf_cases, padding_cases]
  simp only [Config.window_eq, hne, hlong, List.take_left' hlen, List.drop_left' hlen, hzero, if_true, if_false,
    padChunk_full w hlen, and_self]

/-- A run that begins with non-zero bytes `l` goes on with those behind them, up to 134 bytes in all (R84). -/
theorem runLen_append (l b : List Byte) (hl : 0x00#8 ∉ l) :
    runLen (l ++ b) = min (l.length + (b.takeWhile (· ≠ 0x00#8)).length) 134 := by
  rw [runLen, List.takeWhile_append_of_pos fun x hx => by simpa using ne_of_mem_of_not_mem hx hl, List.length_append]

/-- The first bytes of a message that begins with non-zero bytes hold no zero. -/
theorem zero_notMem_take_append (l b : List Byte) (n : Nat) (hn : n ≤ l.length) (hl : 0x00#8 ∉ l) :
    0x00#8 ∉ (l ++ b).take n := by
  rw [List.take_append_of_le_length hn]
  exact fun hmem => hl (List.mem_of_mem_take hmem)

/-- 134 non-zero bytes are cut off as RUN134 (R84). -/
theorem chunksOf_run134 (l b : List Byte) (hlen : l.length = 134) (hl : 0x00#8 ∉ l) :
    chunksOf (l ++ b) = .run134 l :: chunksOf b ∧ padding (l ++ b) = padding b := by
  have hne : l ++ b ≠ [] := List.append_ne_nil_of_left_ne_nil (List.ne_nil_of_length_pos (by omega)) b
  have hlong : ¬ (l ++ b).length < 7 := by rw [List.length_append]; omega
  have hrun : runLen (l ++ b) = 134 := by rw [runLen_append l b hl]; omega
  have hwindow := zero_notMem_take_append l b 7 (by omega) hl
  rw [chunksOf_cases, padding_cases]
  simp only [Config.window_eq, Config.runLong_eq, hne, hlong, hwindow, hrun, List.take_left' hlen, List.drop_left' hlen,
    if_true, if_false, and_self]

/-- 7 to 133 non-zero bytes and a zero are cut off as a RUN, the zero with them (R84). -/
theorem chunksOf_run (l b : List Byte) (hlo : 7 ≤ l.length) (hhi : l.length ≤ 133) (hl : 0x00#8 ∉ l) :
    chunksOf (l ++ 0x00#8 :: b) = .run l :: chunksOf b ∧ padding (l ++ 0x00#8 :: b) = padding b := by
  have hne : l ++ 0x00#8 :: b ≠ [] := List.append_ne_nil_of_right_ne_nil l (List.cons_ne_nil _ b)
  have hlong : ¬ (l ++ 0x00#8 :: b).length < 7 := by rw [List.length_append]; omega
  have hrun : runLen (l ++ 0x00#8 :: b) = l.length := by
    rw [runLen_append l _ hl]
    simp
    omega
  have hshort : l.length ≠ 134 := by omega
  have hlt : l.length < (l ++ 0x00#8 :: b).length := by rw [List.length_append, List.length_cons]; omega
  have hdrop : (l ++ 0x00#8 :: b).drop (l.length + 1) = b := by rw [← List.drop_drop, List.drop_left]; rfl
  have hwindow := zero_notMem_take_append l (0x00#8 :: b) 7 hlo hl
  rw [chunksOf_cases, padding_cases]
  simp only [Config.window_eq, Config.runLong_eq, hne, hlong, hwindow, hrun, hshort, hlt, List.take_left, hdrop, if_true,
    if_false, and_self]

/-- What a grammar chunk stands for is cut off the front of a message as this chunk (R84, R69). -/
theorem chunksOf_decoded_append (c : Chunk) (hwf : c.wf = true) (b : List Byte) :
    chunksOf (c.decoded ++ b) = c :: chunksOf b ∧ padding (c.decoded ++ b) = padding b := by
  cases c with
  | mask m lits =>
    obtain ⟨hlen, hzero, hpad⟩ := Chunk.mask_block m lits hwf
    have h := chunksOf_window _ b hlen hzero
    rwa [hpad] at h
  | run lits =>
    obtain ⟨hlo, hhi, hlits⟩ := (Chunk.wf_run_iff lits).mp hwf
    rw [Chunk.decoded, List.append_assoc]
    exact chunksOf_run lits b hlo hhi hlits
  | run134 lits =>
    obtain ⟨hlen, hlits⟩ := (Chunk.wf_run134_iff lits).mp hwf
    exact chunksOf_run134 lits b hlen hlits

/-- What grammar chunks stand for is cut off the front of a message as these chunks, and the padding is that of the rest. -/
theorem chunksOf_chunksDecoded_append (cs : List Chunk) (hwf : chunksWf cs = true) (b : List Byte) :
    chunksOf (chunksDecoded cs ++ b) = cs ++ chunksOf b ∧ padding (chunksDecoded cs ++ b) = padding b := by
  induction cs with
  | nil => exact ⟨rfl, rfl⟩
  | cons c cs ih =>
    obtain ⟨hc, hcs⟩ := (chunksWf_cons c cs).mp hwf
    obtain ⟨hchunks, hpad⟩ := ih hcs
    obtain ⟨hchunks', hpad'⟩ := chunksOf_decoded_append c hc (chunksDecoded cs ++ b)
    rw [chunksDecoded_cons, List.append_assoc, hchunks', hchunks, hpad', hpad]
    exact ⟨rfl, rfl⟩

theorem chunksBytes_append (cs cs' : List Chunk) : chunksBytes (cs ++ cs') = chunksBytes cs ++ chunksBytes cs' :=
  List.flatMap_append

theorem chunksDecoded_append (cs cs' : List Chunk) :
    chunksDecoded (cs ++ cs') = chunksDecoded cs ++ chunksDecoded cs' :=
  List.flatMap_append

theorem chunksWf_append (cs cs' : List Chunk) :
    chunksWf (cs ++ cs') = true ↔ chunksWf cs = true ∧ chunksWf cs' = true := by
  simp [chunksWf]

/-- The frame of a message that begins with what grammar chunks stand for begins with these chunks (R118). -/
theorem encodeMessage_chunksDecoded_append (cs : List Chunk) (hwf : chunksWf cs = true) (b : List Byte) :
    encodeMessage (chunksDecoded cs ++ b) = chunksBytes cs ++ encodeMessage b := by
  rw [encodeMessage, (chunksOf_chunksDecoded_append cs hwf b).1, frameBytes, chunksBytes_append, List.append_assoc]
  rfl

/-- A message without bytes needs no padding (R114). -/
theorem padding_nil : padding [] = 0 := rfl

/-- Chunks of the grammar are those R84 gives what they stand for (R69). -/
theorem chunksOf_chunksDecoded (cs : List Chunk) (hwf : chunksWf cs = true) : chunksOf (chunksDecoded cs) = cs := by
  have h := (chunksOf_chunksDecoded_append cs hwf []).1
  rwa [List.append_nil, show chunksOf [] = [] from rfl, List.append_nil] at h

/-- What grammar chunks stand for needs no padding (R124). -/
theorem padding_chunksDecoded (cs : List Chunk) (hwf : chunksWf cs = true) : padding (chunksDecoded cs) = 0 := by
  have h := (chunksOf_chunksDecoded_append cs hwf []).2
  rwa [List.append_nil, padding_nil] at h

/-- `encode` gives back the frame of what its chunks stand for (R69). -/
theorem encodeMessage_chunksDecoded (cs : List Chunk) (hwf : chunksWf cs = true) :
    encodeMessage (chunksDecoded cs) = frameBytes cs := by
  rw [encodeMessage, chunksOf_chunksDecoded cs hwf]

/-- One to six zeros are a partial window (R114). -/
theorem padding_zeros (d : Nat) (hd : d ≤ 6) (h : padding (zeros d) = 0) : d = 0 := by
  by_contra hne
  have hlen : (zeros d).length = d := List.length_replicate
  have hnil : zeros d ≠ [] := List.ne_nil_of_length_pos (by omega)
  rw [padding_cases, if_neg hnil, Config.window_eq, hlen, if_pos (by omega)] at h
  omega

theorem zeros_add (i j : Nat) : zeros (i + j) = zeros i ++ zeros j := List.replicate_add i j 0x00#8

/-- Up to six zeros behind what grammar chunks stand for complete no further chunk. -/
theorem eq_of_chunksDecoded_append_zeros (cs cs' : List Chunk) (hwf : chunksWf cs = true) (hwf' : chunksWf cs' = true)
    (d : Nat) (hd : d ≤ 6) (h : chunksDecoded cs' = chunksDecoded cs ++ zeros d) : cs = cs' := by
  have hpad := padding_chunksDecoded cs' hwf'
  rw [h, (chunksOf_chunksDecoded_append cs hwf _).2] at hpad
  obtain rfl := padding_zeros d hd hpad
  rw [← chunksOf_chunksDecoded cs' hwf', h, zeros, List.replicate_zero, List.append_nil, chunksOf_chunksDecoded cs hwf]

/-- Chunks of the grammar that stand for a message and at most six zeros are those R84 gives the message (R117). -/
theorem chunksOf_eq_of_padded (cs : List Chunk) (b : List Byte) (k : Nat) (hwf : chunksWf cs = true) (hk : k ≤ 6)
    (h : chunksDecoded cs = b ++ zeros k) : chunksOf b = cs := by
  have hcut := (chunking b).chunksDecoded_eq
  have hcutWf := (chunking b).chunksWf_eq_true
  have hle := (chunking b).padding_le
  rcases Nat.le_total k (padding b) with hlt | hge
  · obtain ⟨d, hd⟩ := Nat.exists_eq_add_of_le hlt
    refine (eq_of_chunksDecoded_append_zeros cs _ hwf hcutWf d (by omega) ?_).symm
    rw [hcut, h, hd, zeros_add, List.append_assoc]
  · obtain ⟨d, hd⟩ := Nat.exists_eq_add_of_le hge
    refine eq_of_chunksDecoded_append_zeros _ cs hcutWf hwf d (by omega) ?_
    rw [hcut, h, hd, zeros_add, List.append_assoc]

end Sys2Proof.Machine
end

