-- ==== Sys2Proof/Proofs/Endings.lean ====
section
/-! Every byte sequence is chunks of the grammar and an ending (42_laws.md R122): nothing, a terminator, or a chunk cut short
by a zero or by the end of the input. What the function `decode` (41_decoder.md R104) and the decoder machine (R91 to R100)
make of each. -/

namespace Sys2Proof

/-- A code position reads a MASK byte as the MASK of its field; field 0 would make it 0x00, the terminator (R57, R63). -/
theorem decodeCode_maskByte (m : Bits7) (h : m ≠ 0#7) : decodeCode (maskByte m) = .mask m := by
  simp [decodeCode, maskByte_eq_zero_iff, maskByte_ne_ff, h]

/-- A code byte other than the terminator is a MASK byte, a RUN byte or 0xFF (R57 to R59). -/
theorem codeByte_cases (c : Byte) (h : c ≠ 0x00#8) :
    (∃ m, m ≠ 0#7 ∧ c = maskByte m) ∨ (∃ n, n ≠ 127#7 ∧ c = runByte n) ∨ c = 0xFF#8 := by
  rcases Nat.lt_or_ge c.toNat 0x80 with hlow | hhigh
  · have hc : maskByte (c.setWidth 7) = c := by
      rw [maskByte, ← BitVec.toNat_inj, BitVec.toNat_setWidth, BitVec.toNat_setWidth]
      omega
    refine .inl ⟨c.setWidth 7, fun hm => h ?_, hc.symm⟩
    rw [← hc, (maskByte_eq_zero_iff _).mpr hm]
  · have hc := runByte_setWidth c hhigh
    by_cases hff : c = 0xFF#8
    · exact .inr (.inr hff)
    · exact .inr (.inl ⟨c.setWidth 7, fun hn => hff (by rw [← hc, (runByte_eq_ff_iff _).mpr hn]), hc.symm⟩)

end Sys2Proof

namespace Sys2Proof.Machine

/-- A code byte with as many non-zero literals as it declares is a chunk of the grammar (R53, R60). -/
theorem exists_chunk_of_bytes (c : Byte) (lits : List Byte) (hc : c ≠ 0x00#8)
    (hlen : lits.length = literalCount (decodeCode c)) (hlits : 0x00#8 ∉ lits) :
    ∃ ch : Chunk, ch.wf = true ∧ ch.bytes = c :: lits := by
  rcases codeByte_cases c hc with ⟨m, hm, rfl⟩ | ⟨n, hn, rfl⟩ | rfl
  · rw [decodeCode_maskByte m hm] at hlen
    exact ⟨.mask m lits, (Chunk.wf_mask_iff m lits).mpr ⟨hm, hlen, hlits⟩, rfl⟩
  · rw [decodeCode_runByte n hn] at hlen
    replace hlen : lits.length = n.toNat + 7 := hlen
    have hfield : n.toNat ≠ 127 := fun h => hn (BitVec.eq_of_toNat_eq h)
    have hcode : runCode lits.length = runByte n := by
      rw [runCode_eq_runByte, hlen, Nat.add_sub_cancel, BitVec.ofNat_toNat, BitVec.setWidth_eq]
    refine ⟨.run lits, (Chunk.wf_run_iff lits).mpr ⟨by omega, by omega, hlits⟩, ?_⟩
    rw [Chunk.bytes, Chunk.code, Chunk.lits, hcode]
  · exact ⟨.run134 lits, (Chunk.wf_run134_iff lits).mpr ⟨hlen, hlits⟩, rfl⟩

/-- A chunk cut short: a code byte and fewer non-zero literals than it declares. -/
structure Cut (c : Byte) (x : List Byte) : Prop where
  code_ne_zero : c ≠ 0x00#8
  short : x.length < literalCount (decodeCode c)
  zero_notMem : 0x00#8 ∉ x

/-- Where a chunk is cut, and the error this is: at the end of the input, or at a zero byte (R126, R127). -/
inductive CutAt : List Byte → Cause → Prop where
  | endOfInput : CutAt [] .noTerminator
  | zero (g : List Byte) : CutAt (0x00#8 :: g) .truncated

/-- What stands behind the whole chunks of a byte sequence: nothing, a terminator, or a chunk cut short. -/
inductive Ending : List Byte → Prop where
  | nothing : Ending []
  | terminator (g : List Byte) : Ending (0x00#8 :: g)
  | cut {c : Byte} {x f : List Byte} {cause : Cause} (hcut : Cut c x) (hat : CutAt f cause) : Ending (c :: (x ++ f))

/-- Every byte sequence is chunks of the grammar and an ending. -/
theorem exists_chunks_ending (f : List Byte) : ∃ cs e, chunksWf cs = true ∧ Ending e ∧ f = chunksBytes cs ++ e := by
  induction hn : f.length using Nat.strong_induction_on generalizing f with
  | _ n ih =>
  cases f with
  | nil => exact ⟨[], [], rfl, .nothing, rfl⟩
  | cons c f =>
    by_cases hc : c = 0x00#8
    · exact ⟨[], c :: f, rfl, hc ▸ .terminator f, rfl⟩
    · have hsplit := List.take_append_drop (literalCount (decodeCode c)) f
      have htake := List.length_take (i := literalCount (decodeCode c)) (l := f)
      by_cases hzero : 0x00#8 ∈ f.take (literalCount (decodeCode c))
      · obtain ⟨x, y, hxy, hx⟩ := List.eq_append_cons_of_mem hzero
        rw [hxy, List.length_append, List.length_cons] at htake
        rw [hxy, List.append_assoc] at hsplit
        exact ⟨[], _, rfl, .cut ⟨hc, by omega, hx⟩ (.zero _), congrArg (c :: ·) hsplit.symm⟩
      · rcases Nat.lt_or_ge f.length (literalCount (decodeCode c)) with hshort | hlong
        · rw [List.take_of_length_le hshort.le] at hzero
          exact ⟨[], _, rfl, .cut ⟨hc, hshort, hzero⟩ .endOfInput, congrArg (c :: ·) (List.append_nil f).symm⟩
        · obtain ⟨ch, hch, hbytes⟩ := exists_chunk_of_bytes c _ hc (List.length_take_of_le hlong) hzero
          obtain ⟨cs, e, hcs, he, hrest⟩ := ih _ (by rw [← hn, List.length_cons, List.length_drop]; omega)
            (f.drop (literalCount (decodeCode c))) rfl
          refine ⟨ch :: cs, e, (chunksWf_cons ch cs).mpr ⟨hch, hcs⟩, he, ?_⟩
          rw [chunksBytes_cons, List.append_assoc, ← hrest, hbytes, List.cons_append, hsplit]

/-- What a chunk cut short gives: its literals, with the zeros of the window positions before the missing literal (D18). -/
def cutOutput (c : Byte) (x : List Byte) : List Byte :=
  if c.getLsbD 7 then x else fillWindow (c.setWidth 7) 7 0 x

@[simp] theorem cutOutput_maskByte (m : Bits7) (x : List Byte) : cutOutput (maskByte m) x = fillWindow m 7 0 x := by
  simp [cutOutput]

@[simp] theorem cutOutput_runByte (n : Bits7) (x : List Byte) : cutOutput (runByte n) x = x := by
  simp [cutOutput]

@[simp] theorem cutOutput_ff (x : List Byte) : cutOutput 0xFF#8 x = x := rfl

/-- `WindowPart m n idx x w`: of the `n` window positions from `idx` on, the non-zero literals `x` fill those that give the
bytes `w`, and the position behind them awaits a literal (R57). -/
inductive WindowPart (m : Bits7) : Nat → Nat → List Byte → List Byte → Prop where
  | awaits {n idx : Nat} (hbit : m.getLsbD idx = false) : WindowPart m (n + 1) idx [] []
  | zero {n idx : Nat} {x w : List Byte} (hbit : m.getLsbD idx = true) (h : WindowPart m n (idx + 1) x w) :
      WindowPart m (n + 1) idx x (0x00#8 :: w)
  | literal {n idx : Nat} {x w : List Byte} (a : Byte) (hbit : m.getLsbD idx = false) (ha : a ≠ 0x00#8)
      (h : WindowPart m n (idx + 1) x w) : WindowPart m (n + 1) idx (a :: x) (a :: w)

/-- Fewer non-zero literals than mask bits are 0 fill part of the window. -/
theorem WindowPart.of_length {m : Bits7} (n idx : Nat) (x : List Byte) (hlen : x.length < clearBits m n idx)
    (hx : 0x00#8 ∉ x) : WindowPart m n idx x (fillWindow m n idx x) := by
  induction n generalizing idx x with
  | zero => exact absurd hlen (Nat.not_lt_zero _)
  | succ n ih =>
    rw [clearBits_succ] at hlen
    cases hbit : m.getLsbD idx with
    | true =>
      simp only [fillWindow, hbit, if_true]
      exact .zero hbit (ih _ _ (by simpa [hbit] using hlen) hx)
    | false =>
      cases x with
      | nil =>
        simp only [fillWindow, hbit]
        exact .awaits hbit
      | cons a x =>
        obtain ⟨ha, hrest⟩ := List.ne_and_not_mem_of_not_mem_cons hx
        simp only [fillWindow, hbit]
        exact .literal a hbit ha.symm (ih _ _ (by simpa [hbit] using hlen) hrest)

/-- A MASK chunk cut short fills part of its window. -/
theorem Cut.windowPart {m : Bits7} {x : List Byte} (hm : m ≠ 0#7) (h : Cut (maskByte m) x) :
    WindowPart m 7 0 x (fillWindow m 7 0 x) := by
  have hshort := h.short
  rw [decodeCode_maskByte m hm] at hshort
  exact .of_length 7 0 x (lt_of_lt_of_eq hshort (clearBits_window m).symm) h.zero_notMem

/-- A RUN chunk cut short has fewer literals than its run is long. -/
theorem Cut.lt_runLength {n : Bits7} {x : List Byte} (hn : n ≠ 127#7) (h : Cut (runByte n) x) :
    x.length < runLength n := by
  have hshort := h.short
  rwa [decodeCode_runByte n hn] at hshort

/-- A RUN134 chunk cut short has fewer than 134 literals. -/
theorem Cut.lt_134 {x : List Byte} (h : Cut 0xFF#8 x) : x.length < 134 := h.short

/-! The function `decode`. -/

/-- Copying literals fails where the chunk is cut (R104). -/
theorem copyLits_cutAt {f : List Byte} {cause : Cause} (hat : CutAt f cause) (j : Nat) (acc : List Byte) :
    copyLits (j + 1) f acc = .fails cause acc := by
  cases hat with
  | endOfInput => rfl
  | zero g => exact if_pos rfl

/-- The literals of a run cut short are copied (R104). -/
theorem copyLits_cut {f : List Byte} {cause : Cause} (hat : CutAt f cause) (n : Nat) (x acc : List Byte)
    (hlen : x.length < n) (hx : 0x00#8 ∉ x) : copyLits n (x ++ f) acc = .fails cause (acc ++ x) := by
  induction x generalizing n acc with
  | nil =>
    obtain ⟨j, rfl⟩ := Nat.exists_eq_add_one_of_ne_zero (Nat.ne_of_gt hlen)
    rw [List.append_nil]
    exact copyLits_cutAt hat j acc
  | cons a x ih =>
    obtain ⟨ha, hx⟩ := List.ne_and_not_mem_of_not_mem_cons hx
    obtain ⟨j, rfl⟩ := Nat.exists_eq_add_one_of_ne_zero (Nat.ne_of_gt (Nat.zero_lt_of_lt hlen))
    rw [List.cons_append, copyLits, if_neg ha.symm, ih j _ (Nat.lt_of_succ_lt_succ hlen) hx, List.append_assoc,
      List.singleton_append]

/-- The part of a window that a chunk cut short fills is copied (R104). -/
theorem copyWindow_cut {f : List Byte} {cause : Cause} (hat : CutAt f cause) {m : Bits7} {n idx : Nat} {x w : List Byte}
    (h : WindowPart m n idx x w) (hidx : idx + n = 7) (acc : List Byte) :
    copyWindow m n (x ++ f) acc = .fails cause (acc ++ w) := by
  induction h generalizing acc with
  | @awaits n idx hbit =>
    have hpos : Config.window - (n + 1) = idx := by rw [Config.window_eq]; omega
    rw [List.nil_append, copyWindow, hpos, if_neg (by simp [hbit]), copyLits_cutAt hat, List.append_nil]
  | @zero n idx x w hbit _ ih =>
    have hpos : Config.window - (n + 1) = idx := by rw [Config.window_eq]; omega
    rw [copyWindow, hpos, if_pos hbit, ih (by omega), List.append_assoc, List.singleton_append]
  | @literal n idx x w a hbit ha _ ih =>
    have hpos : Config.window - (n + 1) = idx := by rw [Config.window_eq]; omega
    have hcopy : copyLits 1 (a :: x ++ f) acc = .more (x ++ f) (acc ++ [a]) :=
      copyLits_append [a] (x ++ f) acc (by simpa using ha.symm)
    rw [copyWindow, hpos, if_neg (by simp [hbit]), hcopy]
    simp only [ih (by omega), List.append_assoc, List.singleton_append]

/-- What a chunk cut short gives is copied, and then copying fails (R104). -/
theorem copyChunk_cut {c : Byte} {x f : List Byte} {cause : Cause} (hcut : Cut c x) (hat : CutAt f cause)
    (acc : List Byte) : copyChunk c (x ++ f) acc = .fails cause (acc ++ cutOutput c x) := by
  rcases codeByte_cases c hcut.code_ne_zero with ⟨m, hm, rfl⟩ | ⟨n, hn, rfl⟩ | rfl
  · rw [copyChunk_maskByte, copyWindow_cut hat (hcut.windowPart hm) rfl, cutOutput_maskByte]
  · rw [copyChunk_runByte n _ _ hn, copyLits_cut hat _ x acc (hcut.lt_runLength hn) hcut.zero_notMem, cutOutput_runByte]
    rfl
  · rw [copyChunk_ff, copyLits_cut hat _ x acc hcut.lt_134 hcut.zero_notMem, cutOutput_ff]

/-- From a code position chunks of the grammar are copied as what they stand for (R104). -/
theorem goFrame_chunksBytes (cs : List Chunk) (hwf : chunksWf cs = true) (f acc : List Byte) :
    goFrame (chunksBytes cs ++ f) acc = goFrame f (acc ++ chunksDecoded cs) := by
  induction cs generalizing acc with
  | nil => rw [chunksDecoded_nil, List.append_nil]; rfl
  | cons c cs ih =>
    obtain ⟨hc, hcs⟩ := (chunksWf_cons c cs).mp hwf
    rw [chunksBytes_cons, Chunk.bytes, List.cons_append, List.cons_append, List.append_assoc, goFrame_cons,
      if_neg (c.code_ne_zero hc), copyChunk_code c hc]
    simp only [ih hcs, chunksDecoded_cons, List.append_assoc]

/-- `decode` on whole chunks and a chunk cut short: the error of the cut, with all that is determined (R104, D18). -/
theorem decodeFrame_cut (cs : List Chunk) (hwf : chunksWf cs = true) {c : Byte} {x f : List Byte} {cause : Cause}
    (hcut : Cut c x) (hat : CutAt f cause) :
    decodeFrame (chunksBytes cs ++ c :: (x ++ f)) = .malformed cause (chunksDecoded cs ++ cutOutput c x) := by
  rw [decodeFrame_eq_goFrame, goFrame_chunksBytes cs hwf, goFrame_cons, if_neg hcut.code_ne_zero, copyChunk_cut hcut hat]
  rfl

/-- `decode` on whole chunks and nothing behind them (R104). -/
theorem decodeFrame_chunksBytes (cs : List Chunk) (hwf : chunksWf cs = true) :
    decodeFrame (chunksBytes cs) = .malformed .noTerminator (chunksDecoded cs) := by
  rw [decodeFrame_eq_goFrame, ← List.append_nil (chunksBytes cs), goFrame_chunksBytes cs hwf, goFrame_nil,
    List.nil_append]

/-- `decode` on whole chunks and a terminator (R104). -/
theorem decodeFrame_terminated (cs : List Chunk) (hwf : chunksWf cs = true) (g : List Byte) :
    decodeFrame (chunksBytes cs ++ 0x00#8 :: g) = .ok (chunksDecoded cs) g := by
  have h := decodeFrame_frameBytes cs hwf g
  rwa [frameBytes, List.append_assoc] at h

/-- Where `decode` answers Ok, the sequence is whole chunks, the terminator and what it leaves (R53, R70). -/
theorem exists_chunks_of_ok (f out rest : List Byte) (h : decodeFrame f = .ok out rest) :
    ∃ cs, chunksWf cs = true ∧ f = chunksBytes cs ++ 0x00#8 :: rest ∧ out = chunksDecoded cs := by
  obtain ⟨cs, e, hwf, he, rfl⟩ := exists_chunks_ending f
  cases he with
  | nothing => rw [List.append_nil, decodeFrame_chunksBytes cs hwf] at h; cases h
  | terminator g =>
    rw [decodeFrame_terminated cs hwf] at h
    cases h
    exact ⟨cs, hwf, rfl, rfl⟩
  | cut hcut hat => rw [decodeFrame_cut cs hwf hcut hat] at h; cases h

/-- Where `decode` answers TRUNCATED, the sequence is whole chunks and a chunk cut by a zero (R126). -/
theorem exists_cut_of_truncated (f part : List Byte) (h : decodeFrame f = .malformed .truncated part) :
    ∃ cs c x g, chunksWf cs = true ∧ Cut c x ∧ f = chunksBytes cs ++ c :: (x ++ 0x00#8 :: g) ∧
      part = chunksDecoded cs ++ cutOutput c x := by
  obtain ⟨cs, e, hwf, he, rfl⟩ := exists_chunks_ending f
  cases he with
  | nothing => rw [List.append_nil, decodeFrame_chunksBytes cs hwf] at h; cases h
  | terminator g => rw [decodeFrame_terminated cs hwf] at h; cases h
  | @cut c x f cause hcut hat =>
    rw [decodeFrame_cut cs hwf hcut hat] at h
    cases h
    cases hat with
    | zero g => exact ⟨cs, c, x, g, hwf, hcut, rfl, rfl⟩

/-- A sequence without a zero is whole chunks, behind them perhaps a chunk cut by the end of the input (R122, R127). -/
theorem exists_chunks_of_zero_notMem (f : List Byte) (h : 0x00#8 ∉ f) :
    ∃ cs, chunksWf cs = true ∧ (f = chunksBytes cs ∨ ∃ c x, Cut c x ∧ f = chunksBytes cs ++ c :: x) := by
  obtain ⟨cs, e, hwf, he, rfl⟩ := exists_chunks_ending f
  refine ⟨cs, hwf, ?_⟩
  cases he with
  | nothing => exact .inl (List.append_nil _)
  | terminator g => exact absurd (List.mem_append_right _ List.mem_cons_self) h
  | @cut c x f cause hcut hat =>
    cases hat with
    | endOfInput => exact .inr ⟨c, x, hcut, by rw [List.append_nil]⟩
    | zero g => exact absurd (List.mem_append_right _ (List.mem_cons_of_mem c (by simp))) h

/-- A chunk cut short holds no zero. -/
theorem Cut.zero_notMem_cons {c : Byte} {x : List Byte} (h : Cut c x) : 0x00#8 ∉ c :: x :=
  List.not_mem_cons_of_ne_of_not_mem h.code_ne_zero.symm h.zero_notMem

/-- Where `decode` answers NO_TERMINATOR, the sequence holds no zero (R127). -/
theorem zero_notMem_of_noTerminator (f part : List Byte) (h : decodeFrame f = .malformed .noTerminator part) :
    0x00#8 ∉ f := by
  obtain ⟨cs, e, hwf, he, rfl⟩ := exists_chunks_ending f
  have hcs := zero_notMem_chunksBytes cs hwf
  cases he with
  | nothing => rwa [List.append_nil]
  | terminator g => rw [decodeFrame_terminated cs hwf] at h; cases h
  | @cut c x f cause hcut hat =>
    rw [decodeFrame_cut cs hwf hcut hat] at h
    cases h
    cases hat with
    | endOfInput =>
      rw [List.append_nil, List.mem_append, not_or]
      exact ⟨hcs, hcut.zero_notMem_cons⟩

/-! The decoder machine. -/

/-- The literals of a run cut short are emitted, and the rest of the run is awaited (R99). -/
theorem readBytes_lits_cut (x : List Byte) (n : Nat) (az : Bool) (s : State) (hlen : x.length < n) (hx : 0x00#8 ∉ x)
    (h : s.dec.ctl = .lit n az) :
    readBytes x s =
      { s with dec := ⟨.lit (n - x.length) az, s.dec.inframe⟩, decOut := s.decOut ++ dataEvents x } := by
  induction x generalizing n s with
  | nil =>
    obtain ⟨enc, encOut, ⟨ctl, inframe⟩, decOut, encSent, decSent, moves⟩ := s
    obtain rfl : ctl = .lit n az := h
    simp [dataEvents]
  | cons a x ih =>
    obtain ⟨ha, hx⟩ := List.ne_and_not_mem_of_not_mem_cons hx
    rw [List.length_cons] at hlen
    rw [readBytes_cons, readByte_lit a n az s h ha.symm, takeRunLiteral_eq a n az s (by omega), if_neg (by omega),
      ih (n - 1) _ (by omega) hx rfl, Nat.sub_sub, List.length_cons, Nat.add_comm x.length 1]
    simp [dataEvents]

/-- The part of a window that a chunk cut short fills is emitted, and the missing literal is awaited (R93, R94, R100). -/
theorem readBytes_window_cut {m : Bits7} {n idx : Nat} {x w : List Byte} (h : WindowPart m n idx x w)
    (hidx : idx + n = 7) (s : State) :
    ∃ i, readBytes x (drain m idx s) =
      { s with dec := ⟨.mask m i, s.dec.inframe⟩, decOut := s.decOut ++ dataEvents w } := by
  induction h generalizing s with
  | @awaits n idx hbit =>
    refine ⟨idx, ?_⟩
    rw [readBytes_nil, drain_literal m idx s (by omega) hbit]
    simp [dataEvents]
  | zero hbit _ ih =>
    obtain ⟨i, hread⟩ := ih (by omega) (s.emitEvents [.data 0x00#8])
    refine ⟨i, ?_⟩
    rw [drain_zero _ _ s (by omega) hbit, hread]
    simp [dataEvents, State.emitEvents]
  | @literal n idx x w a hbit ha _ ih =>
    obtain ⟨i, hread⟩ := ih (by omega) (State.emitEvents { s with dec := ⟨.mask m idx, s.dec.inframe⟩ } [.data a])
    refine ⟨i, ?_⟩
    rw [drain_literal _ _ s (by omega) hbit, readBytes_cons, readByte_mask a _ _ _ rfl ha, takeMaskLiteral, hread]
    simp [dataEvents, State.emitEvents]

/-- From a code position what a chunk cut short gives is emitted, and the decoder awaits a literal, inside the frame. -/
theorem readBytes_cut {c : Byte} {x : List Byte} (hcut : Cut c x) (s : State) (h : s.dec.ctl = .code) :
    ∃ ctl, ctl.position = .literal ∧ readBytes (c :: x) s =
      { s with dec := ⟨ctl, true⟩, decOut := s.decOut ++ dataEvents (cutOutput c x) } := by
  rw [readBytes_cons]
  rcases codeByte_cases c hcut.code_ne_zero with ⟨m, hm, rfl⟩ | ⟨n, hn, rfl⟩ | rfl
  · obtain ⟨i, hread⟩ := readBytes_window_cut (hcut.windowPart hm) rfl (s.setDec { s.dec with inframe := true })
    refine ⟨.mask m i, rfl, ?_⟩
    rw [readByte_maskByte m s h hm, startMask, hread, cutOutput_maskByte]
    rfl
  · refine ⟨.lit (runLength n - x.length) true, rfl, ?_⟩
    rw [readByte_runByte n s h hn, readBytes_lits_cut x _ true _ (hcut.lt_runLength hn) hcut.zero_notMem rfl,
      cutOutput_runByte]
    rfl
  · refine ⟨.lit (134 - x.length) false, rfl, ?_⟩
    rw [readByte_ff s h, readBytes_lits_cut x 134 false _ hcut.lt_134 hcut.zero_notMem rfl, cutOutput_ff]
    rfl

/-- From a code position chunks of the grammar are read as what they stand for, and a code byte is awaited; any chunk at all
is a frame in progress (R27, R93 to R100). -/
theorem readBytes_chunksBytes (cs : List Chunk) (s : State) (hwf : chunksWf cs = true) (h : s.dec.ctl = .code) :
    readBytes (chunksBytes cs) s =
      { s with dec := if cs = [] then s.dec else ⟨.code, true⟩, decOut := s.decOut ++ dataEvents (chunksDecoded cs) } := by
  induction cs generalizing s with
  | nil => simp [dataEvents]
  | cons c cs ih =>
    obtain ⟨hc, hcs⟩ := (chunksWf_cons c cs).mp hwf
    rw [chunksBytes_cons, readBytes_append, readBytes_chunk c s hc h, ih _ hcs rfl]
    simp [chunksDecoded_cons, dataEvents]

/-- Behind chunks of the grammar the decoder awaits a code byte. -/
theorem readBytes_chunksBytes_ctl (cs : List Chunk) (s : State) (hwf : chunksWf cs = true) (h : s.dec.ctl = .code) :
    (readBytes (chunksBytes cs) s).dec.ctl = .code := by
  rw [readBytes_chunksBytes cs s hwf h]
  split
  · exact h
  · rfl

/-- Whole chunks and a chunk cut short: all that is determined is emitted, and the decoder awaits a literal, inside the
frame. -/
theorem readBytes_chunksBytes_cut (cs : List Chunk) {c : Byte} {x : List Byte} (hcut : Cut c x) (s : State)
    (hwf : chunksWf cs = true) (h : s.dec.ctl = .code) :
    ∃ ctl, ctl.position = .literal ∧ readBytes (chunksBytes cs ++ c :: x) s =
      { s with dec := ⟨ctl, true⟩, decOut := s.decOut ++ dataEvents (chunksDecoded cs ++ cutOutput c x) } := by
  obtain ⟨ctl, hctl, hread⟩ := readBytes_cut hcut _ (readBytes_chunksBytes_ctl cs s hwf h)
  refine ⟨ctl, hctl, ?_⟩
  rw [readBytes_append, hread, readBytes_chunksBytes cs s hwf h]
  simp [dataEvents]

/-- A zero in a literal position is the error TRUNCATED (R98). -/
theorem readByte_zero_literal (s : State) (h : s.dec.ctl.position = .literal) :
    readByte 0x00#8 s = raiseMalformed .truncated s :=
  Host.Outcome.next.inj ((exec_decPut_literal s 0x00#8 h).trans (exec_zeroInLiteral_literal s h))

end Sys2Proof.Machine
end

