-- ==== Sys2Proof/Proofs/DecoderRefinement.lean ====
section
/-! The decoder machine computes the function `decode` (41_decoder.md R105), and both classify every byte sequence by its
first zero (42_laws.md R122, R123). -/

namespace Sys2Proof.Machine

theorem decPuts_append (f g : List Byte) : decPuts (f ++ g) = decPuts f ++ decPuts g := List.map_append

/-- A run over the `PUT`s of `f` and then of `g` reads `f` first. -/
theorem runFor_decPuts_append (f g : List Byte) (s : State) (more : List Move)
    (h : s.moves = decPuts (f ++ g) ++ more) :
    runFor f.length s = .next (readBytes f { s with moves := decPuts g ++ more }) :=
  runFor_decPuts f s _ (by rw [h, decPuts_append, List.append_assoc])

/-- Settles O40: the bytes of a chunk read one after another, `readBytes_chunk`. -/
theorem decoderDecodesAChunk : Obligations.DecoderDecodesAChunk := by
  intro c s rest hwf hcode hmoves
  rw [runFor_decPuts c.bytes s rest hmoves, readBytes_chunk c { s with moves := rest } hwf hcode]

/-- Settles O43: the sequence is whole chunks and the terminator, which the decoder reads as a frame of the grammar. -/
theorem decoderMachineComputesDecodeOk : Obligations.DecoderMachineComputesDecodeOk := by
  intro f out rest s more hdec hmoves hok
  obtain ⟨cs, hwf, rfl, rfl⟩ := exists_chunks_of_ok f out rest hok
  have hcode : s.dec.ctl = .code := by rw [hdec]; rfl
  have hframe : s.moves = decPuts (frameBytes cs ++ rest) ++ more := by rw [hmoves, frameBytes, List.append_assoc]; rfl
  have hlen : (chunksBytes cs).length + 1 = (frameBytes cs).length :=
    (List.length_append (as := chunksBytes cs) (bs := [Config.term])).symm
  refine ⟨chunksBytes cs, _, rfl, runFor_decPuts_append _ _ s more hmoves, ?_, ?_⟩
  · rw [readBytes_chunksBytes cs { s with moves := decPuts (0x00#8 :: rest) ++ more } hwf hcode]
  · rw [hlen, runFor_decPuts_append _ _ s more hframe,
      readBytes_frameBytes cs { s with moves := decPuts rest ++ more } hwf hcode, ← hdec]

/-- Settles O44: the sequence is whole chunks and one cut by a zero, which the decoder reads in a literal position. -/
theorem decoderMachineComputesDecodeTruncated : Obligations.DecoderMachineComputesDecodeTruncated := by
  intro f part s more hdec hmoves htrunc
  obtain ⟨cs, c, x, g, hwf, hcut, rfl, rfl⟩ := exists_cut_of_truncated f part htrunc
  have hcode : s.dec.ctl = .code := by rw [hdec]; rfl
  have hsplit : chunksBytes cs ++ c :: (x ++ 0x00#8 :: g) = (chunksBytes cs ++ c :: x) ++ 0x00#8 :: g := by simp
  have hone : chunksBytes cs ++ c :: (x ++ 0x00#8 :: g) = ((chunksBytes cs ++ c :: x) ++ [0x00#8]) ++ g := by simp
  have hread (ms : List Move) := readBytes_chunksBytes_cut cs hcut { s with moves := ms } hwf hcode
  refine ⟨chunksBytes cs ++ c :: x, g, _, hsplit, runFor_decPuts_append _ _ s more (by rw [hmoves, hsplit]), ?_, ?_⟩
  · obtain ⟨ctl, -, heq⟩ := hread (decPuts (0x00#8 :: g) ++ more)
    rw [heq]
  · obtain ⟨ctl, hctl, heq⟩ := hread (decPuts g ++ more)
    have hlen : (chunksBytes cs ++ c :: x).length + 1 = ((chunksBytes cs ++ c :: x) ++ [0x00#8]).length := by
      rw [List.length_append (as := chunksBytes cs ++ c :: x)]; rfl
    rw [hlen, runFor_decPuts_append _ g s more (by rw [hmoves, hone]), readBytes_append, heq, readBytes_cons,
      readByte_zero_literal _ hctl, raiseMalformed_eq, hdec]
    rfl

/-- A non-empty sequence without a zero: the decoder emits what `decode` reports as its partial output, and a frame is in
progress (R27, R104). -/
theorem readBytes_of_zero_notMem (f : List Byte) (s : State) (hne : f ≠ []) (hzero : 0x00#8 ∉ f)
    (h : s.dec.ctl = .code) :
    ∃ part ctl, decodeFrame f = .malformed .noTerminator part ∧
      readBytes f s = { s with dec := ⟨ctl, true⟩, decOut := s.decOut ++ dataEvents part } := by
  obtain ⟨cs, hwf, rfl | ⟨c, x, hcut, rfl⟩⟩ := exists_chunks_of_zero_notMem f hzero
  · refine ⟨_, .code, decodeFrame_chunksBytes cs hwf, ?_⟩
    have hcs : cs ≠ [] := fun hnil => hne (by rw [hnil]; rfl)
    rw [readBytes_chunksBytes cs s hwf h, if_neg hcs]
  · obtain ⟨ctl, -, hread⟩ := readBytes_chunksBytes_cut cs hcut s hwf h
    have hdecode := decodeFrame_cut cs hwf hcut .endOfInput
    rw [List.append_nil] at hdecode
    exact ⟨_, ctl, hdecode, hread⟩

/-- Settles O45: after a sequence without a terminator a frame is in progress, unless it is empty, and `EOI` asks for
that. -/
theorem decoderMachineComputesDecodeNoTerminator : Obligations.DecoderMachineComputesDecodeNoTerminator := by
  intro f part s more hdec hmoves hnoTerm
  have hcode : s.dec.ctl = .code := by rw [hdec]; rfl
  refine ⟨fun hne => ?_, fun hnil => ?_⟩
  · have hzero := zero_notMem_of_noTerminator f part hnoTerm
    obtain ⟨part', ctl, hpart, hread⟩ := readBytes_of_zero_notMem f { s with moves := eoiMove :: more } hne hzero hcode
    obtain rfl : part = part' := by rw [hnoTerm] at hpart; cases hpart; rfl
    have hrun := runFor_decPuts f s _ hmoves
    rw [hread] at hrun
    refine ⟨hzero, ⟨_, hrun, rfl⟩, ?_⟩
    rw [runFor_add f.length 1 s _ hrun, runFor_succ 0 _ _ (step_decEoi _ more rfl), runFor_zero, hdec]
    rfl
  · subst hnil
    cases hnoTerm
    refine ⟨rfl, ?_⟩
    have heoi : exec .decEoi { s with moves := more } = .next { s with moves := more } := by
      rw [exec_decEoi, if_neg (by simp [hdec])]
    rw [runFor_succ 0 s _ ((step_decEoi s more hmoves).trans heoi), runFor_zero]

/-- Settles O52: the sequences `decode` accepts whole are whole chunks and the terminator. -/
theorem decodeAcceptsExactlyTheGrammar : Obligations.DecodeAcceptsExactlyTheGrammar := by
  intro f out
  refine ⟨exists_chunks_of_ok f out [], ?_⟩
  rintro ⟨cs, hwf, rfl, rfl⟩
  exact decodeFrame_terminated cs hwf []

/-- Settles O57: a sequence without a zero is whole chunks, where the next zero is a terminator, or ends in a chunk cut
short, where it is an error. -/
theorem decodeClassifiesEverySequence : Obligations.DecodeClassifiesEverySequence := by
  intro p s hzero hdec hmoves
  have hcode : s.dec.ctl = .code := by rw [hdec]; rfl
  have hrun := runFor_decPuts p s [] (by rw [hmoves, List.append_nil])
  obtain ⟨cs, hwf, rfl | ⟨c, x, hcut, rfl⟩⟩ := exists_chunks_of_zero_notMem p hzero
  · have hctl := readBytes_chunksBytes_ctl cs { s with moves := [] } hwf hcode
    refine ⟨⟨_, decodeFrame_chunksBytes cs hwf⟩, _, hrun, fun _ => ⟨_, decodeFrame_terminated cs hwf⟩, fun hlit => ?_⟩
    rw [hctl] at hlit
    cases hlit
  · obtain ⟨ctl, hctl, hread⟩ := readBytes_chunksBytes_cut cs hcut { s with moves := [] } hwf hcode
    have hend := decodeFrame_cut cs hwf hcut .endOfInput
    rw [List.append_nil] at hend
    refine ⟨⟨_, hend⟩, _, hrun, fun hpos => ?_, fun _ => ⟨chunksDecoded cs ++ cutOutput c x, fun g => ?_⟩⟩
    · rw [hread] at hpos
      exact absurd (hctl.symm.trans hpos) (by decide)
    · rw [List.append_assoc]
      exact decodeFrame_cut cs hwf hcut (.zero g)

/-- Settles O58: `decodeFrame_cut` for the two ways a chunk is cut, `decodeFrame_terminated` for a cut between chunks. -/
theorem truncatedFramesAreRejected : Obligations.TruncatedFramesAreRejected := by
  intro cs c x g hwf hc hshort hx
  have hcut : Cut c x := ⟨hc, hshort, hx⟩
  have hend := decodeFrame_cut cs hwf hcut .endOfInput
  rw [List.append_nil] at hend
  exact ⟨⟨_, decodeFrame_cut cs hwf hcut (.zero g)⟩, ⟨_, hend⟩, decodeFrame_terminated cs hwf g⟩

end Sys2Proof.Machine
end

