-- ==== Sys2Proof/Proofs/FrameLaws.lean ====
section
/-! The laws of frames and messages (42_laws.md R115 to R120): what a frame of the grammar decodes to, and which frame of the
grammar a message has. -/

namespace Sys2Proof.Machine

/-- A chunk declares the literals it has (R57 to R59). -/
theorem Chunk.length_lits (c : Chunk) (hwf : c.wf = true) : c.lits.length = literalCount (decodeCode c.code) := by
  cases c with
  | mask m lits =>
    obtain ⟨hm, hlen, -⟩ := (wf_mask_iff m lits).mp hwf
    rw [Chunk.code, decodeCode_maskByte m hm]
    exact hlen
  | run lits =>
    obtain ⟨hlo, hhi, -⟩ := (wf_run_iff lits).mp hwf
    rw [Chunk.code, decodeCode_runCode _ hlo hhi]
    exact (runLength_ofNat _ hlo (by omega)).symm
  | run134 lits => exact ((wf_run134_iff lits).mp hwf).1

/-- What a chunk stands for is 7, L + 1 or 134 bytes long (R66). -/
theorem Chunk.length_decoded (c : Chunk) (hwf : c.wf = true) : c.decoded.length = c.decodedLength := by
  cases c with
  | mask m lits => exact (windowFill_of_wf m lits hwf).length_eq
  | run lits => exact List.length_append
  | run134 lits => exact ((wf_run134_iff lits).mp hwf).1

/-- Settles O39: one lemma for each length, and no byte of a chunk is zero. -/
theorem chunkLengths : Obligations.ChunkLengths := fun c hwf =>
  ⟨c.code_ne_zero hwf, c.length_lits hwf, Nat.add_comm _ _, c.length_decoded hwf, c.zero_notMem_bytes hwf⟩

/-- A sequence is its zeros and its non-zero bytes. -/
theorem length_nonZeros_add_count (w : List Byte) : (nonZeros w).length + w.count 0x00#8 = w.length := by
  have h := List.length_eq_countP_add_countP (fun x : Byte => decide (x ≠ 0x00#8)) (l := w)
  rw [nonZeros, ← List.countP_eq_length_filter, List.count, h]
  congr 2
  funext x
  by_cases hx : x = 0x00#8 <;> simp [hx]

/-- A chunk has one byte more than what it stands for has non-zero bytes (R115). -/
theorem Chunk.length_bytes_add_count (c : Chunk) (hwf : c.wf = true) :
    c.bytes.length + c.decoded.count 0x00#8 = c.decoded.length + 1 := by
  have hnonZeros : nonZeros c.decoded = c.lits := by
    cases c with
    | mask m lits => exact (windowFill_of_wf m lits hwf).nonZeros_eq
    | run lits =>
      rw [Chunk.decoded, nonZeros, List.filter_append, ← nonZeros, nonZeros_eq_self lits ((run lits).zero_notMem_lits hwf)]
      exact List.append_nil _
    | run134 lits => exact nonZeros_eq_self lits ((run134 lits).zero_notMem_lits hwf)
  have hcount := length_nonZeros_add_count c.decoded
  rw [hnonZeros] at hcount
  rw [Chunk.bytes, List.length_cons]
  omega

/-- Chunks have one byte each more than what they stand for has non-zero bytes (R115). -/
theorem length_chunksBytes_add_count (cs : List Chunk) (hwf : chunksWf cs = true) :
    (chunksBytes cs).length + (chunksDecoded cs).count 0x00#8 = (chunksDecoded cs).length + cs.length := by
  induction cs with
  | nil => rfl
  | cons c cs ih =>
    obtain ⟨hc, hcs⟩ := (chunksWf_cons c cs).mp hwf
    have hchunk := c.length_bytes_add_count hc
    have hrest := ih hcs
    rw [chunksBytes_cons, chunksDecoded_cons, List.length_append, List.length_append, List.count_append, List.length_cons]
    omega

/-- Settles O51: the chunks stand for the message and its padding, which adds as many bytes as zeros. -/
theorem frameLength : Obligations.FrameLength := by
  intro b
  have hlen := length_chunksBytes_add_count _ (chunking b).chunksWf_eq_true
  have hcount : (zeros (padding b)).count 0x00#8 = padding b := List.count_replicate_self
  have hzeros : (zeros (padding b)).length = padding b := List.length_replicate
  rw [(chunking b).chunksDecoded_eq, List.count_append, List.length_append, hcount, hzeros] at hlen
  rw [encodeMessage, frameBytes, List.length_append, List.length_singleton]
  omega

/-- A frame of the grammar decodes to what `encode` makes this frame of (R69). -/
theorem IsFrame.encode_decode {f : List Byte} (h : IsFrame f) :
    ∃ out, decodeFrame f = .ok out [] ∧ encodeMessage out = f := by
  obtain ⟨cs, hwf, rfl⟩ := h
  exact ⟨chunksDecoded cs, decodeFrame_terminated cs hwf [], encodeMessage_chunksDecoded cs hwf⟩

/-- `encode` inverts `decode` on the frames of the grammar (R116). -/
theorem IsFrame.encodeMessage_eq {f out : List Byte} (h : IsFrame f) (hok : decodeFrame f = .ok out []) :
    encodeMessage out = f := by
  obtain ⟨out', hok', hencode⟩ := h.encode_decode
  rw [hok] at hok'
  cases hok'
  exact hencode

/-- Settles O53: `encode` gives each frame back from its output, so the output determines the frame. -/
theorem encodeInvertsDecode : Obligations.EncodeInvertsDecode :=
  ⟨fun _ h => h.encode_decode, fun _ _ _ h h' hok hok' => (h.encodeMessage_eq hok).symm.trans (h'.encodeMessage_eq hok')⟩

/-- `encode` gives frames of the grammar. -/
theorem isFrame_encodeMessage (b : List Byte) : IsFrame (encodeMessage b) :=
  ⟨chunksOf b, (chunking b).chunksWf_eq_true, rfl⟩

/-- The frame of a message decodes to the message and its padding (R114). -/
theorem decodeFrame_encodeMessage_self (b : List Byte) :
    decodeFrame (encodeMessage b) = .ok (b ++ zeros (padding b)) [] := by
  simpa only [List.append_nil] using decodeFrame_encodeMessage b []

/-- The one frame of the grammar that decodes to a message and at most six zeros (R117). -/
theorem eq_encodeMessage_of_padded (b f : List Byte) (k : Nat) (hframe : IsFrame f) (hk : k ≤ 6)
    (hok : decodeFrame f = .ok (b ++ zeros k) []) : f = encodeMessage b := by
  obtain ⟨cs, hwf, rfl⟩ := hframe
  have hout : chunksDecoded cs = b ++ zeros k :=
    (DecodeResult.ok.inj ((decodeFrame_terminated cs hwf []).symm.trans hok)).1
  rw [encodeMessage, chunksOf_eq_of_padded cs b k hwf hk hout]

/-- Settles O54: `encode` gives such a frame, and there is no other. -/
theorem frameOfAMessageIsUnique : Obligations.FrameOfAMessageIsUnique := by
  refine fun b f => ⟨fun ⟨hframe, k, hk, hok⟩ => eq_encodeMessage_of_padded b f k hframe hk hok, ?_⟩
  rintro rfl
  exact ⟨isFrame_encodeMessage b, padding b, (chunking b).padding_le, decodeFrame_encodeMessage_self b⟩

/-- Settles O56: with zeros of its padding appended a message still has its frame, because that frame decodes to it and the
zeros left; and what a shared frame decodes to is either message with its padding. -/
theorem whatIsLost : Obligations.WhatIsLost := by
  refine ⟨fun b j hj => ?_, fun b b' hsame => ⟨padding b, padding b', ?_⟩⟩
  · obtain ⟨d, hd⟩ := Nat.exists_eq_add_of_le hj
    have hle := (chunking b).padding_le
    have hok := decodeFrame_encodeMessage_self b
    rw [hd, zeros_add, ← List.append_assoc] at hok
    exact (eq_encodeMessage_of_padded _ _ d (isFrame_encodeMessage b) (by omega) hok).symm
  · have hok := decodeFrame_encodeMessage_self b
    rw [hsame, decodeFrame_encodeMessage_self b'] at hok
    exact (DecodeResult.ok.inj hok).1.symm

/-- From a code position the decoder reads the frames of messages one by one (R119). -/
theorem readBytes_messages (msgs : List (List Byte)) (s : State) (h : s.dec = DecState.reset) :
    readBytes (msgs.flatMap encodeMessage) s =
      { s with decOut := s.decOut ++ msgs.flatMap (fun b => okEvents (b ++ zeros (padding b))) } := by
  induction msgs generalizing s with
  | nil => rw [List.flatMap_nil, List.flatMap_nil, List.append_nil, readBytes_nil]
  | cons b msgs ih =>
    have hcode : s.dec.ctl = .code := by rw [h]; rfl
    rw [List.flatMap_cons, readBytes_append, readBytes_encodeMessage b s hcode, ih _ rfl, List.flatMap_cons,
      ← List.append_assoc, ← h]

/-- Settles O55: the function stops behind the first frame, and the machine reads frame after frame. -/
theorem streamsOfFrames : Obligations.StreamsOfFrames := by
  refine ⟨decodeFrame_encodeMessage, fun msgs s more hdec hmoves => ?_⟩
  rw [runFor_decPuts _ s more hmoves, readBytes_messages msgs { s with moves := more } hdec]

end Sys2Proof.Machine
end

