-- ==== Sys2Proof/Proofs/EncoderRegisters.lean ====
section
/-! The encoder's registers (10_state.md R18 to R22): in a state that meets the invariant they are those of the message bytes
held, and what `ENC.PUT` and `ENC.END` (40_encoder.md R72 to R83) make of them, in terms of these bytes. -/

namespace Sys2Proof.Machine

/-! Masks of windows. -/

/-- The mask of two sequences one after the other (R62). -/
theorem maskOf_append (w v : List Byte) : maskOf (w ++ v) = maskOf w ||| maskOf v <<< w.length := by
  induction w with
  | nil => simp [maskOf]
  | cons a w ih =>
    rw [List.cons_append, maskOf, ih, BitVec.shiftLeft_or_distrib, ← BitVec.shiftLeft_add, maskOf, List.length_cons,
      BitVec.or_assoc, BitVec.or_assoc, BitVec.or_comm (maskOf v <<< (w.length + 1))]

/-- A zero joins the window: its bit is set (R73). -/
theorem maskOf_append_zero (w : List Byte) : maskOf (w ++ [0x00#8]) = maskOf w ||| 1#7 <<< w.length := maskOf_append w _

/-- A non-zero byte joins the window: the mask stays (R74). -/
theorem maskOf_append_of_ne (w : List Byte) (b : Byte) (hb : b ≠ 0x00#8) : maskOf (w ++ [b]) = maskOf w := by
  simp [maskOf_append, maskOf, hb]

/-- A window without a zero has mask 0. -/
theorem maskOf_eq_zero (w : List Byte) (hw : 0x00#8 ∉ w) : maskOf w = 0#7 := by
  induction w with
  | nil => rfl
  | cons a w ih =>
    obtain ⟨ha, hw⟩ := List.ne_and_not_mem_of_not_mem_cons hw
    simp [maskOf, ih hw, ha.symm]

/-- A window with a zero has a mask other than 0. -/
theorem maskOf_ne_zero (w : List Byte) (hlen : w.length ≤ 7) (hw : 0x00#8 ∈ w) : maskOf w ≠ 0#7 := by
  intro hmask
  obtain ⟨i, hi, hget⟩ := List.mem_iff_getElem.mp hw
  have hbit := maskOf_getLsbD w i (by omega)
  rw [hmask, List.getElem?_eq_getElem hi, hget] at hbit
  simp at hbit

/-- A window of up to seven bytes fills from its own mask and its non-zero bytes. -/
theorem windowFill_self (w : List Byte) (hlen : w.length ≤ 7) : WindowFill (maskOf w) w.length 0 (nonZeros w) w := by
  have h := WindowFill.of_bits (m := maskOf w) w.length 0 w (le_refl _) fun i hi => by
    rw [Nat.zero_add, maskOf_getLsbD w i (by omega), List.getElem?_eq_getElem hi, List.getD_eq_getElem w _ hi]
    rfl
  rwa [Nat.sub_self, zeros, List.replicate_zero, List.append_nil] at h

/-- If no mask bit from position `n` on is 1, the bits before it are either 0 or counted by `popcount`. -/
theorem clearBits_add_popcount (m : Bits7) (n : Nat) (hn : n ≤ 7) (h : ∀ i < 7, n ≤ i → m.getLsbD i = false) :
    clearBits m n 0 + popcount m = n := by
  have hall := List.length_eq_countP_add_countP (fun i => m.getLsbD i) (l := List.range n)
  simp only [List.length_range, Bool.not_eq_true, Bool.decide_eq_false] at hall
  have hrest : ((List.range (7 - n)).map (n + ·)).countP (fun i => m.getLsbD i) = 0 := by
    refine List.countP_eq_zero.mpr fun i hi => ?_
    obtain ⟨j, hj, rfl⟩ := List.mem_map.mp hi
    rw [List.mem_range] at hj
    simp [h (n + j) (by omega) (by omega)]
  have hwindow : popcount m = (List.range n).countP (fun i => m.getLsbD i) := by
    rw [popcount, show Config.window = n + (7 - n) by simp only [Config.window_eq]; omega, List.range_add,
      List.countP_append, hrest, Nat.add_zero]
  rw [clearBits, ← List.range_eq_range', hwindow]
  omega

/-! The registers of the bytes held. -/

/-- The registers of an encoder that holds the bytes `w` of a window or run (R19 to R21). -/
def EncState.holding (w : List Byte) : EncState := ⟨w.length, maskOf w, nonZeros w⟩

/-- Bytes that are held and not emitted: no whole block is among them (R75 to R78). -/
structure Unfinished (w : List Byte) : Prop where
  length_le : w.length ≤ 133
  zero_notMem : 7 ≤ w.length → 0x00#8 ∉ w

theorem unfinished_nil : Unfinished [] := ⟨Nat.zero_le _, fun _ => List.not_mem_nil⟩

theorem EncState.holding_nil : EncState.holding [] = EncState.reset := rfl

/-- The registers of held bytes meet the invariant (R22). -/
theorem EncState.inv_holding (w : List Byte) (hw : Unfinished w) : (EncState.holding w).Inv := by
  refine ⟨hw.length_le, fun b hb => ne_of_mem_of_not_mem hb (zero_notMem_nonZeros w), fun hshort => ?_, fun hlong => ?_⟩
  · replace hshort : w.length < 7 := hshort
    have hclear (i : Nat) (hi : i < 7) (hle : w.length ≤ i) : (maskOf w).getLsbD i = false := by
      rw [maskOf_getLsbD w i hi, List.getElem?_eq_none hle]
      rfl
    refine ⟨hclear, ?_⟩
    rw [holding, (windowFill_self w hshort.le).length_lits]
    exact clearBits_add_popcount _ _ hshort.le hclear
  · have hzero := hw.zero_notMem hlong
    rw [holding, maskOf_eq_zero w hzero, nonZeros_eq_self w hzero]
    exact ⟨rfl, rfl⟩

/-- `held` gives the bytes held (R22, R32). -/
theorem EncState.held_holding (w : List Byte) (hw : Unfinished w) : (EncState.holding w).held = w := by
  rcases Nat.lt_or_ge w.length 7 with hshort | hlong
  · exact (if_pos hshort).trans (windowFill_self w hshort.le).fillWindow_eq
  · exact (if_neg (Nat.not_lt.mpr hlong)).trans (nonZeros_eq_self w (hw.zero_notMem hlong))

/-- In the window phase mask and literals of the invariant give the bytes held (R22 (c)). -/
theorem EncState.eq_holding_window (run : Nat) (zeros : Bits7) (lits : List Byte) (hshort : run < 7)
    (hlits : 0x00#8 ∉ lits) (hclear : ∀ i < 7, run ≤ i → zeros.getLsbD i = false)
    (hcount : lits.length + popcount zeros = run) :
    (fillWindow zeros run 0 lits).length = run ∧
      EncState.mk run zeros lits = EncState.holding (fillWindow zeros run 0 lits) := by
  have hsum := clearBits_add_popcount zeros run hshort.le hclear
  have hfill := WindowFill.of_length (m := zeros) run 0 lits (by omega) hlits
  have hmask : maskOf (fillWindow zeros run 0 lits) = zeros := by
    refine BitVec.eq_of_getLsbD_eq fun i hi => ?_
    rw [maskOf_getLsbD _ i hi]
    rcases Nat.lt_or_ge i run with hlt | hge
    · rw [← hfill.getLsbD_eq i hlt, Nat.zero_add]
    · rw [List.getElem?_eq_none (hfill.length_eq.trans_le hge), hclear i hi hge]
      rfl
  exact ⟨hfill.length_eq, by rw [holding, hfill.length_eq, hmask, hfill.nonZeros_eq]⟩

/-- Registers that meet the invariant are those of the bytes they hold (R22). -/
theorem EncState.eq_holding_held (e : EncState) (h : e.Inv) : Unfinished e.held ∧ e = EncState.holding e.held := by
  obtain ⟨run, zeros, lits⟩ := e
  obtain ⟨hmax, hlits, hwindow, hrun⟩ := h
  replace hlits : 0x00#8 ∉ lits := fun hmem => hlits _ hmem rfl
  rcases Nat.lt_or_ge run 7 with hshort | hlong
  · obtain ⟨hclear, hcount⟩ := hwindow hshort
    obtain ⟨hlen, heq⟩ := EncState.eq_holding_window run zeros lits hshort hlits hclear hcount
    have hheld : EncState.held ⟨run, zeros, lits⟩ = fillWindow zeros run 0 lits := if_pos hshort
    rw [hheld]
    exact ⟨⟨hlen.trans_le hmax, fun hge => absurd (hge.trans_eq hlen) (Nat.not_le.mpr hshort)⟩, heq⟩
  · obtain ⟨hzeros, hlen⟩ := hrun hlong
    have hheld : EncState.held ⟨run, zeros, lits⟩ = lits := if_neg (Nat.not_lt.mpr hlong)
    replace hzeros : zeros = 0#7 := hzeros
    replace hlen : lits.length = run := hlen
    rw [hheld]
    refine ⟨⟨hlen.trans_le hmax, fun _ => hlits⟩, ?_⟩
    rw [holding, hlen, maskOf_eq_zero lits hlits, nonZeros_eq_self lits hlits, hzeros]

/-! `ENC.PUT`. -/

/-- What `ENC.PUT(b)` makes of the state, in either phase (R72). -/
def putByte (b : Byte) (s : State) : State := if s.enc.run < Config.window then putWindow b s else putRun b s

theorem exec_encPut (b : Byte) (s : State) : exec (.encPut b) s = .next (putByte b s) := rfl

theorem nonZeros_append (w v : List Byte) : nonZeros (w ++ v) = nonZeros w ++ nonZeros v := List.filter_append ..

/-- The registers of the held bytes and a zero (R73). -/
theorem EncState.holding_append_zero (w : List Byte) :
    EncState.holding (w ++ [0x00#8]) = ⟨w.length + 1, maskOf w ||| 1#7 <<< w.length, nonZeros w⟩ := by
  rw [holding, List.length_append, maskOf_append_zero, nonZeros_append]
  exact congrArg _ (List.append_nil _)

/-- The registers of the held bytes and a non-zero byte (R74, R77). -/
theorem EncState.holding_append_of_ne (w : List Byte) (b : Byte) (hb : b ≠ 0x00#8) :
    EncState.holding (w ++ [b]) = ⟨w.length + 1, maskOf w, nonZeros w ++ [b]⟩ := by
  rw [holding, List.length_append, maskOf_append_of_ne w b hb, nonZeros_append, nonZeros_cons_of_ne b [] hb]
  rfl

/-- In the window phase the byte joins the bytes held, and the window is completed if it is full (R73 to R75). -/
theorem putByte_window (s : State) (w : List Byte) (b : Byte) (h : s.enc = EncState.holding w) (hlen : w.length < 7) :
    putByte b s = completeWindow (s.setEnc (EncState.holding (w ++ [b]))) := by
  rw [putByte, if_pos (by rw [h]; exact hlen)]
  by_cases hb : b = 0x00#8
  · rw [hb, putWindow_zero, EncState.holding_append_zero, h]
    rfl
  · rw [putWindow_of_ne s b hb, EncState.holding_append_of_ne w b hb, h]
    rfl

/-- In the run phase a zero ends the run (R76). -/
theorem putByte_run_zero (s : State) (w : List Byte) (h : s.enc = EncState.holding w) (hlen : 7 ≤ w.length) :
    putByte 0x00#8 s = flush (runCode w.length) s := by
  have hrun : s.enc.run = w.length := by rw [h]; rfl
  rw [putByte, if_neg (by rw [hrun]; exact Nat.not_lt.mpr hlen), putRun, if_pos rfl, hrun]

/-- In the run phase a non-zero byte joins the bytes held, and the run is completed if it is of the longest (R77, R78). -/
theorem putByte_run_of_ne (s : State) (w : List Byte) (b : Byte) (h : s.enc = EncState.holding w) (hlen : 7 ≤ w.length)
    (hb : b ≠ 0x00#8) : putByte b s = completeRun (s.setEnc (EncState.holding (w ++ [b]))) := by
  rw [putByte, if_neg (by rw [h]; exact Nat.not_lt.mpr hlen), putRun_of_ne s b hb, EncState.holding_append_of_ne w b hb, h]
  rfl

/-- A full window with a zero goes out as its chunk (R75). -/
theorem completeWindow_full (s : State) (w : List Byte) (hlen : w.length = 7) (hzero : 0x00#8 ∈ w) :
    completeWindow (s.setEnc (EncState.holding w)) =
      { s with enc := EncState.reset, encOut := s.encOut ++ (padChunk w).bytes } := by
  refine (if_pos ⟨hlen, maskOf_ne_zero w hlen.le hzero⟩).trans ?_
  rw [padChunk_full w hlen]
  rfl

/-- Any other window stays (R75). -/
theorem completeWindow_unfinished (s : State) (w : List Byte) (hw : Unfinished w) :
    completeWindow (s.setEnc (EncState.holding w)) = s.setEnc (EncState.holding w) :=
  if_neg fun ⟨hlen, hmask⟩ => hmask (maskOf_eq_zero w (hw.zero_notMem (Nat.le_of_eq hlen.symm)))

/-- A run of 134 goes out as RUN134 (R78). -/
theorem completeRun_full (s : State) (l : List Byte) (hlen : l.length = 134) (hl : 0x00#8 ∉ l) :
    completeRun (s.setEnc (EncState.holding l)) =
      { s with enc := EncState.reset, encOut := s.encOut ++ (Chunk.run134 l).bytes } := by
  refine (if_pos hlen).trans ?_
  rw [EncState.holding, nonZeros_eq_self l hl]
  rfl

/-- A shorter run goes on growing (R77). -/
theorem completeRun_unfinished (s : State) (l : List Byte) (hl : Unfinished l) :
    completeRun (s.setEnc (EncState.holding l)) = s.setEnc (EncState.holding l) :=
  if_neg fun hlen => absurd (hlen.symm.trans_le hl.length_le) (by decide)

/-- A run that ends goes out as a RUN chunk (R76, R83). -/
theorem flush_run (s : State) (l : List Byte) (h : s.enc = EncState.holding l) (hl : 0x00#8 ∉ l) :
    flush (runCode l.length) s = { s with enc := EncState.reset, encOut := s.encOut ++ (Chunk.run l).bytes } := by
  rw [flush_eq, h, EncState.holding, nonZeros_eq_self l hl]
  rfl

/-- `ENC.PUT(b)` either holds `b` as well, or the bytes held and `b` are a block, and its chunk is emitted (R75 to R78). -/
theorem putByte_cases (s : State) (w : List Byte) (b : Byte) (hw : Unfinished w) (h : s.enc = EncState.holding w) :
    (Unfinished (w ++ [b]) ∧ putByte b s = { s with enc := EncState.holding (w ++ [b]) }) ∨
    ∃ c : Chunk, c.wf = true ∧ c.decoded = w ++ [b] ∧
      putByte b s = { s with enc := EncState.reset, encOut := s.encOut ++ c.bytes } := by
  have hlen : (w ++ [b]).length = w.length + 1 := List.length_append
  have hle := hw.length_le
  rcases Nat.lt_or_ge w.length 7 with hshort | hlong
  · rw [putByte_window s w b h hshort]
    by_cases hblock : (w ++ [b]).length = 7 ∧ 0x00#8 ∈ w ++ [b]
    · obtain ⟨hseven, hzero⟩ := hblock
      have hdecoded := padChunk_decoded _ hseven.le
      rw [hseven, Nat.sub_self, zeros, List.replicate_zero, List.append_nil] at hdecoded
      exact .inr ⟨_, padChunk_wf _ hseven.le (.inr hzero), hdecoded, completeWindow_full s _ hseven hzero⟩
    · have hmore : Unfinished (w ++ [b]) := ⟨by omega, fun hge hzero => hblock ⟨by omega, hzero⟩⟩
      exact .inl ⟨hmore, completeWindow_unfinished s _ hmore⟩
  · have hzero := hw.zero_notMem hlong
    by_cases hb : b = 0x00#8
    · rw [hb, putByte_run_zero s w h hlong]
      exact .inr ⟨.run w, (Chunk.wf_run_iff w).mpr ⟨hlong, hle, hzero⟩, rfl, flush_run s w h hzero⟩
    · have hzero' : 0x00#8 ∉ w ++ [b] := by simpa [hzero] using Ne.symm hb
      rw [putByte_run_of_ne s w b h hlong hb]
      by_cases hfull : (w ++ [b]).length = 134
      · exact .inr ⟨_, (Chunk.wf_run134_iff _).mpr ⟨hfull, hzero'⟩, rfl, completeRun_full s _ hfull hzero'⟩
      · have hmore : Unfinished (w ++ [b]) := ⟨by omega, fun _ => hzero'⟩
        exact .inl ⟨hmore, completeRun_unfinished s _ hmore⟩

/-! `ENC.END`. -/

/-- One to six bytes are cut as one partial window (R84, R114). -/
theorem chunksOf_partial (w : List Byte) (hlo : 1 ≤ w.length) (hhi : w.length ≤ 6) :
    chunksOf w = [padChunk w] ∧ padding w = 7 - w.length := by
  have hne : w ≠ [] := List.ne_nil_of_length_pos hlo
  rw [chunksOf_cases, padding_cases]
  simp only [Config.window_eq, hne, Nat.lt_succ_of_le hhi, if_true, if_false, and_self]

/-- 7 to 133 non-zero bytes are cut as one run the message ends inside (R84, R114). -/
theorem chunksOf_lastRun (w : List Byte) (hlo : 7 ≤ w.length) (hhi : w.length ≤ 133) (hw : 0x00#8 ∉ w) :
    chunksOf w = [.run w] ∧ padding w = 1 := by
  have hne : w ≠ [] := List.ne_nil_of_length_pos (by omega)
  have hrun : runLen w = w.length := by
    have h := runLen_append w [] hw
    rw [List.append_nil, List.takeWhile_nil, List.length_nil, Nat.add_zero] at h
    omega
  have hshort : w.length ≠ 134 := by omega
  have hwindow : 0x00#8 ∉ w.take 7 := fun hmem => hw (List.mem_of_mem_take hmem)
  rw [chunksOf_cases, padding_cases]
  simp only [Config.window_eq, Config.runLong_eq, hne, Nat.not_lt.mpr hlo, hwindow, hrun, hshort, Nat.lt_irrefl,
    List.take_length, if_false, and_self]

/-- The padding of held bytes, by `enc.run` (R114). -/
theorem Unfinished.padding_eq {w : List Byte} (hw : Unfinished w) :
    padding w = if w.length = 0 then 0 else if w.length ≤ 6 then 7 - w.length else 1 := by
  split_ifs with hnil hshort
  · rw [List.eq_nil_of_length_eq_zero hnil, padding_nil]
  · exact (chunksOf_partial w (Nat.pos_of_ne_zero hnil) hshort).2
  · exact (chunksOf_lastRun w (by omega) hw.length_le (hw.zero_notMem (by omega))).2

/-- Held bytes are cut as at most one chunk (R80). -/
theorem Unfinished.length_chunksOf_le {w : List Byte} (hw : Unfinished w) : (chunksOf w).length ≤ 1 := by
  rcases Nat.eq_zero_or_pos w.length with hnil | hlo
  · rw [List.eq_nil_of_length_eq_zero hnil]
    exact Nat.zero_le 1
  · rcases Nat.lt_or_ge 6 w.length with hlong | hshort
    · rw [(chunksOf_lastRun w hlong hw.length_le (hw.zero_notMem hlong)).1, List.length_singleton]
    · rw [(chunksOf_partial w hlo hshort).1, List.length_singleton]

/-- The held bytes go out as the chunks R84 gives them (R80 to R83). -/
theorem closeChunk_holding (s : State) (w : List Byte) (hw : Unfinished w) (h : s.enc = EncState.holding w) :
    closeChunk s = { s with enc := EncState.reset, encOut := s.encOut ++ chunksBytes (chunksOf w) } := by
  have hrun : s.enc.run = w.length := by rw [h]; rfl
  rcases Nat.eq_zero_or_pos w.length with hidle | hlo
  · obtain rfl := List.eq_nil_of_length_eq_zero hidle
    rw [closeChunk_idle s (hrun.trans hidle), ← EncState.holding_nil, ← h]
    exact congrArg (fun out => { s with encOut := out }) (List.append_nil s.encOut).symm
  · rcases Nat.lt_or_ge 6 w.length with hlong | hshort
    · have hzero := hw.zero_notMem hlong
      rw [closeChunk_run s (hrun ▸ hlong), hrun, flush_run s w h hzero, (chunksOf_lastRun w hlong hw.length_le hzero).1,
        chunksBytes_cons, chunksBytes_nil, List.append_nil]
    · rw [closeChunk_window s (hrun ▸ hlo) (hrun ▸ hshort), flush_eq, h, (chunksOf_partial w hlo hshort).1,
        chunksBytes_cons, chunksBytes_nil, List.append_nil]
      rfl

/-- `ENC.END` emits the frame of the bytes held (R80). -/
theorem exec_encEnd_holding (s : State) (w : List Byte) (hw : Unfinished w) (h : s.enc = EncState.holding w) :
    exec .encEnd s = .next { s with enc := EncState.reset, encOut := s.encOut ++ encodeMessage w } := by
  rw [exec_encEnd, closeChunk_holding s w hw h, State.emitBytes, List.append_assoc]
  rfl

end Sys2Proof.Machine
end

