-- ==== Sys2Proof/Proofs/EncoderRefinement.lean ====
section
/-! The encoder machine computes the function `encode` (40_encoder.md R85): after any `PUT`s it has emitted whole chunks and
holds the rest (42_laws.md R118), and `END` emits the frame of the rest. -/

namespace Sys2Proof.Machine

/-- Settles O5: the whole state of `flush`. -/
theorem encPutZeroEndsARun : Obligations.EncPutZeroEndsARun := by
  intro s hlo _
  rw [exec_encPut_run s 0x00#8 hlo]
  rfl

/-- Settles O35: registers that meet the invariant are those of the bytes they hold, and `putByte_cases` says what becomes of
them. -/
theorem encPutHoldsOrEmitsTheMessage : Obligations.EncPutHoldsOrEmitsTheMessage := by
  intro s b t hinv hexec
  obtain ⟨hheld, hregs⟩ := s.enc.eq_holding_held hinv
  have hrun : s.enc.held.length = s.enc.run := (congrArg EncState.run hregs).symm
  obtain rfl : putByte b s = t := Host.Outcome.next.inj hexec
  refine ⟨hrun, ?_⟩
  rcases putByte_cases s _ b hheld hregs with ⟨hmore, hput⟩ | ⟨c, hwf, hdecoded, hput⟩
  · rw [hput]
    exact .inl ⟨rfl, EncState.held_holding _ hmore⟩
  · rw [hput]
    exact .inr ⟨c, hwf, rfl, hdecoded, rfl⟩

/-- Settles O36: `END` emits the frame of the bytes held, which is cut as at most one chunk. -/
theorem encEndEmitsTheHeldBytes : Obligations.EncEndEmitsTheHeldBytes := by
  intro s t hinv hexec
  obtain ⟨hheld, hregs⟩ := s.enc.eq_holding_held hinv
  have hrun : s.enc.held.length = s.enc.run := (congrArg EncState.run hregs).symm
  rw [exec_encEnd_holding s _ hheld hregs] at hexec
  cases hexec
  refine ⟨chunksOf s.enc.held, padding s.enc.held, (chunking _).chunksWf_eq_true, hheld.length_chunksOf_le, ?_,
    (chunking _).chunksDecoded_eq, ?_⟩
  · rw [List.append_assoc]
    rfl
  · rw [hheld.padding_eq, hrun]

/-- How many bytes the chunk has that a `PUT` emits, by what the encoder held before it (R87). -/
theorem length_bytes_of_put (c : Chunk) (w : List Byte) (b : Byte) (hwf : c.wf = true) (hdecoded : c.decoded = w ++ [b]) :
    (w.length = 6 ∧ 1 ≤ c.bytes.length ∧ c.bytes.length ≤ 7) ∨
    (7 ≤ w.length ∧ b = 0x00#8 ∧ 8 ≤ c.bytes.length ∧ c.bytes.length ≤ 134) ∨
    (w.length = 133 ∧ b ≠ 0x00#8 ∧ c.bytes.length = 135) := by
  have hlen : c.decoded.length = w.length + 1 := by rw [hdecoded, List.length_append, List.length_singleton]
  have hcount := c.length_bytes_add_count hwf
  cases c with
  | mask m lits =>
    obtain ⟨hseven, hzero, -⟩ := Chunk.mask_block m lits hwf
    have hpos := List.count_pos_iff.mpr hzero
    exact .inl ⟨by omega, by rw [Chunk.bytes]; exact Nat.succ_pos _, by omega⟩
  | run lits =>
    obtain ⟨hlo, hhi, -⟩ := (Chunk.wf_run_iff lits).mp hwf
    obtain ⟨rfl, hb⟩ := List.append_inj' hdecoded rfl
    have hbytes : (Chunk.run lits).bytes.length = lits.length + 1 := rfl
    exact .inr (.inl ⟨hlo, (List.singleton_inj.mp hb).symm, by omega, by omega⟩)
  | run134 lits =>
    obtain ⟨hlits, hzero⟩ := (Chunk.wf_run134_iff lits).mp hwf
    have hbytes : (Chunk.run134 lits).bytes.length = lits.length + 1 := rfl
    replace hdecoded : lits = w ++ [b] := hdecoded
    rw [hdecoded, List.mem_append, not_or] at hzero
    replace hlen : lits.length = w.length + 1 := hlen
    exact .inr (.inr ⟨by omega, fun hb => hzero.2 (by rw [hb]; exact List.mem_singleton_self _), by omega⟩)

/-- How long the frame of held bytes is (R87). -/
theorem Unfinished.length_encodeMessage {w : List Byte} (hw : Unfinished w) :
    (w.length = 0 → (encodeMessage w).length = 1) ∧
    (1 ≤ w.length → w.length ≤ 6 → 2 ≤ (encodeMessage w).length ∧ (encodeMessage w).length ≤ 8) ∧
    (7 ≤ w.length → 9 ≤ (encodeMessage w).length ∧ (encodeMessage w).length ≤ 135) := by
  have hlen : (encodeMessage w).length = (chunksBytes (chunksOf w)).length + 1 := List.length_append
  refine ⟨fun hnil => ?_, fun hlo hhi => ?_, fun hlo => ?_⟩
  · rw [List.eq_nil_of_length_eq_zero hnil]
    rfl
  · have hnz : (nonZeros w).length ≤ w.length := List.length_filter_le _ w
    rw [(chunksOf_partial w hlo hhi).1, length_chunksBytes_cons, padChunk_lits, chunksBytes_nil, List.length_nil] at hlen
    omega
  · have hhi := hw.length_le
    rw [(chunksOf_lastRun w hlo hhi (hw.zero_notMem hlo)).1, length_chunksBytes_cons, Chunk.lits, chunksBytes_nil,
      List.length_nil] at hlen
    omega

/-- Settles O37: a `PUT` emits nothing or one chunk, `END` the frame of the bytes held. -/
theorem encoderOutputPerEvent : Obligations.EncoderOutputPerEvent := by
  intro s hinv
  obtain ⟨hheld, hregs⟩ := s.enc.eq_holding_held hinv
  have hrun : s.enc.held.length = s.enc.run := (congrArg EncState.run hregs).symm
  refine ⟨fun b t hexec => ?_, fun t hexec => ?_⟩
  · obtain rfl : putByte b s = t := Host.Outcome.next.inj hexec
    rcases putByte_cases s _ b hheld hregs with ⟨-, hput⟩ | ⟨c, hwf, hdecoded, hput⟩
    · exact ⟨[], by rw [hput, List.append_nil], .inl rfl⟩
    · have hlen := length_bytes_of_put c _ b hwf hdecoded
      rw [hrun] at hlen
      exact ⟨c.bytes, by rw [hput], .inr hlen⟩
  · rw [exec_encEnd_holding s _ hheld hregs] at hexec
    cases hexec
    have hlen := hheld.length_encodeMessage
    rw [hrun] at hlen
    exact ⟨encodeMessage s.enc.held, rfl, hlen⟩

/-- `Parsed b cs r`: the message `b` is what the grammar chunks `cs` stand for, and the unfinished rest `r` (R118). -/
structure Parsed (b : List Byte) (cs : List Chunk) (r : List Byte) : Prop where
  wf : chunksWf cs = true
  unfinished : Unfinished r
  eq_append : b = chunksDecoded cs ++ r

namespace Parsed

variable {b r : List Byte} {cs : List Chunk}

/-- The frame of a message is its whole chunks and the frame of the rest, whatever follows the message (R118). -/
theorem encodeMessage_append (h : Parsed b cs r) (c : List Byte) :
    encodeMessage (b ++ c) = chunksBytes cs ++ encodeMessage (r ++ c) := by
  rw [h.eq_append, List.append_assoc, encodeMessage_chunksDecoded_append cs h.wf]

/-- The frame of a message is its whole chunks and the frame of the rest. -/
theorem encodeMessage_eq (h : Parsed b cs r) : encodeMessage b = chunksBytes cs ++ encodeMessage r := by
  simpa only [List.append_nil] using h.encodeMessage_append []

/-- The padding of a message is that of the rest (R114). -/
theorem padding_eq (h : Parsed b cs r) : padding b = padding r := by
  rw [h.eq_append, (chunksOf_chunksDecoded_append cs h.wf r).2]

/-- The rest is no longer than the message. -/
theorem length_rest_le (h : Parsed b cs r) : r.length ≤ b.length := by
  rw [h.eq_append, List.length_append]
  exact Nat.le_add_left _ _

/-- The chunks stand for the message without the rest. -/
theorem chunksDecoded_eq_take (h : Parsed b cs r) : chunksDecoded cs = b.take (b.length - r.length) := by
  have hlen : b.length - r.length = (chunksDecoded cs).length := by
    rw [h.eq_append, List.length_append, Nat.add_sub_cancel]
  rw [hlen, h.eq_append, List.take_left]

/-- A message needs no padding exactly when it has no unfinished rest (R124). -/
theorem padding_eq_zero_iff (h : Parsed b cs r) : padding b = 0 ↔ r = [] := by
  rw [h.padding_eq]
  refine ⟨fun hpad => ?_, fun hnil => hnil ▸ padding_nil⟩
  rw [h.unfinished.padding_eq] at hpad
  split_ifs at hpad with hnil hshort
  · exact List.eq_nil_of_length_eq_zero hnil
  · omega

end Parsed

/-- A run over the `PUT`s of a message from held bytes: the whole chunks of these bytes and the message are emitted, and the
rest is held (R75 to R78, R118). -/
theorem exists_runFor_encPuts (b w : List Byte) (s : State) (more : List Move) (hw : Unfinished w)
    (hregs : s.enc = EncState.holding w) (hmoves : s.moves = encPuts b ++ more) :
    ∃ cs r, Parsed (w ++ b) cs r ∧ runFor b.length s = .next
      { s with moves := more, enc := EncState.holding r, encOut := s.encOut ++ chunksBytes cs } := by
  induction b generalizing w s with
  | nil =>
    obtain rfl : s.moves = more := hmoves
    refine ⟨[], w, ⟨rfl, hw, List.append_nil w⟩, ?_⟩
    rw [chunksBytes_nil, List.append_nil, ← hregs]
    rfl
  | cons a b ih =>
    have hstep : step s = .next (putByte a { s with moves := encPuts b ++ more }) := step_encPut s a _ hmoves
    rw [List.length_cons, runFor_succ _ s _ hstep]
    rcases putByte_cases { s with moves := encPuts b ++ more } w a hw hregs with ⟨hmore, hput⟩ | ⟨c, hwf, hdecoded, hput⟩
    · obtain ⟨cs, r, hparsed, hrun⟩ := ih (w ++ [a]) _ hmore (congrArg State.enc hput) (congrArg State.moves hput)
      refine ⟨cs, r, by rwa [List.append_assoc] at hparsed, ?_⟩
      rw [hrun, hput]
    · obtain ⟨cs, r, ⟨hcs, hr, hsplit⟩, hrun⟩ :=
        ih [] _ unfinished_nil (congrArg State.enc hput) (congrArg State.moves hput)
      replace hsplit : b = chunksDecoded cs ++ r := hsplit
      refine ⟨c :: cs, r, ⟨(chunksWf_cons c cs).mpr ⟨hwf, hcs⟩, hr, ?_⟩, ?_⟩
      · rw [chunksDecoded_cons, List.append_assoc, ← hsplit, hdecoded, List.append_assoc]
        rfl
      · rw [hrun, hput, chunksBytes_cons, ← List.append_assoc]

/-- The same from the reset registers. -/
theorem exists_runFor_encPuts_reset (b : List Byte) (s : State) (more : List Move) (hregs : s.enc = EncState.reset)
    (hmoves : s.moves = encPuts b ++ more) :
    ∃ cs r, Parsed b cs r ∧ runFor b.length s = .next
      { s with moves := more, enc := EncState.holding r, encOut := s.encOut ++ chunksBytes cs } :=
  exists_runFor_encPuts b [] s more unfinished_nil hregs hmoves

/-- The `PUT`s of a message and `END` emit its frame and leave the reset registers (R85). -/
theorem runFor_encMessage (b : List Byte) (s : State) (more : List Move) (hregs : s.enc = EncState.reset)
    (hmoves : s.moves = encMessage b ++ more) :
    runFor (encMessage b).length s = .next { s with moves := more, encOut := s.encOut ++ encodeMessage b } := by
  rw [encMessage, List.append_assoc] at hmoves
  obtain ⟨cs, r, hparsed, hrun⟩ := exists_runFor_encPuts_reset b s _ hregs hmoves
  have hlen : (encMessage b).length = b.length + 1 := by
    rw [encMessage, encPuts, List.length_append, List.length_map, List.length_singleton]
  have hend := exec_encEnd_holding
    { s with moves := more, enc := EncState.holding r, encOut := s.encOut ++ chunksBytes cs } r hparsed.unfinished rfl
  rw [hlen, runFor_add b.length 1 s _ hrun, runFor_succ 0 _ _ ((step_encEnd _ more rfl).trans hend), runFor_zero,
    hparsed.encodeMessage_eq, ← List.append_assoc, hregs]

/-- Settles O41: message after message, each as `runFor_encMessage` says. -/
theorem encoderMachineComputesEncode : Obligations.EncoderMachineComputesEncode := by
  intro msgs s rest hregs hmoves
  induction msgs generalizing s with
  | nil =>
    obtain rfl : s.moves = rest := hmoves
    rw [List.flatMap_nil, List.flatMap_nil, List.append_nil]
    rfl
  | cons b msgs ih =>
    rw [List.flatMap_cons, List.append_assoc] at hmoves
    have hrest := ih { s with moves := msgs.flatMap encMessage ++ rest, encOut := s.encOut ++ encodeMessage b } hregs rfl
    rw [List.flatMap_cons, List.length_append, runFor_add _ _ s _ (runFor_encMessage b s _ hregs hmoves), hrest,
      List.flatMap_cons, ← List.append_assoc]

/-- Settles O42: the chunks emitted and the rest held are those of `exists_runFor_encPuts`. -/
theorem encoderLagAndPrefixStability : Obligations.EncoderLagAndPrefixStability := by
  intro b s hregs hmoves
  obtain ⟨cs, r, hparsed, hrun⟩ := exists_runFor_encPuts_reset b s [] hregs (hmoves.trans (List.append_nil _).symm)
  refine ⟨_, cs, hrun, rfl, hparsed.wf, hparsed.unfinished.length_le, hparsed.length_rest_le, hparsed.chunksDecoded_eq_take,
    fun c => ?_⟩
  rw [hparsed.encodeMessage_append c]
  exact List.prefix_append _ _

/-- Settles O50: the padding of a message is that of the rest the encoder holds, which its length decides. -/
theorem exactPadding : Obligations.ExactPadding := by
  intro b s hregs hmoves
  obtain ⟨cs, r, hparsed, hrun⟩ := exists_runFor_encPuts_reset b s [] hregs (hmoves.trans (List.append_nil _).symm)
  exact ⟨decodeFrame_encodeMessage_self b, _, hrun, hparsed.padding_eq.trans hparsed.unfinished.padding_eq⟩

end Sys2Proof.Machine
end

