-- ==== Sys2Proof/Proofs/DecoderRange.lean ====
section
/-! The decoder's range (42_laws.md R124): the outputs of frames are the concatenations of blocks, and the messages after
which the encoder holds nothing. -/

namespace Sys2Proof.Machine

/-- The blocks are what the chunks of the grammar stand for (R124). -/
theorem isBlock_iff (w : List Byte) : IsBlock w ↔ ∃ c : Chunk, c.wf = true ∧ c.decoded = w := by
  constructor
  · rintro (⟨hlen, hzero⟩ | ⟨l, rfl, hlo, hhi, hl⟩ | ⟨hlen, hzero⟩)
    · refine ⟨padChunk w, padChunk_wf w hlen.le (.inr hzero), ?_⟩
      rw [padChunk_decoded w hlen.le, hlen]
      exact List.append_nil w
    · exact ⟨.run l, (Chunk.wf_run_iff l).mpr ⟨hlo, hhi, hl⟩, rfl⟩
    · exact ⟨.run134 w, (Chunk.wf_run134_iff w).mpr ⟨hlen, hzero⟩, rfl⟩
  · rintro ⟨c, hwf, rfl⟩
    cases c with
    | mask m lits =>
      obtain ⟨hlen, hzero, -⟩ := Chunk.mask_block m lits hwf
      exact .inl ⟨hlen, hzero⟩
    | run lits =>
      obtain ⟨hlo, hhi, hlits⟩ := (Chunk.wf_run_iff lits).mp hwf
      exact .inr (.inl ⟨lits, rfl, hlo, hhi, hlits⟩)
    | run134 lits => exact .inr (.inr ((Chunk.wf_run134_iff lits).mp hwf))

/-- Concatenations of blocks are what sequences of grammar chunks stand for (R124). -/
theorem exists_chunks_of_blocks (ws : List (List Byte)) (h : ∀ w ∈ ws, IsBlock w) :
    ∃ cs, chunksWf cs = true ∧ chunksDecoded cs = ws.flatten := by
  induction ws with
  | nil => exact ⟨[], rfl, rfl⟩
  | cons w ws ih =>
    obtain ⟨c, hc, hdecoded⟩ := (isBlock_iff w).mp (h w List.mem_cons_self)
    obtain ⟨cs, hcs, hflat⟩ := ih fun v hv => h v (List.mem_cons_of_mem w hv)
    exact ⟨c :: cs, (chunksWf_cons c cs).mpr ⟨hc, hcs⟩, by rw [chunksDecoded_cons, hdecoded, hflat, List.flatten_cons]⟩

/-- What grammar chunks stand for is a concatenation of blocks (R124). -/
theorem chunksDecoded_isBlocks (cs : List Chunk) (hwf : chunksWf cs = true) :
    (∀ w ∈ cs.map Chunk.decoded, IsBlock w) ∧ chunksDecoded cs = (cs.map Chunk.decoded).flatten := by
  refine ⟨fun w hw => ?_, List.flatMap_def⟩
  obtain ⟨c, hc, rfl⟩ := List.mem_map.mp hw
  exact (isBlock_iff _).mpr ⟨c, List.all_eq_true.mp hwf c hc, rfl⟩

/-- The outputs of frames are what sequences of grammar chunks stand for (R70). -/
theorem isFrame_output_iff (o : List Byte) :
    (∃ f, IsFrame f ∧ decodeFrame f = .ok o []) ↔ ∃ cs, chunksWf cs = true ∧ chunksDecoded cs = o := by
  constructor
  · rintro ⟨f, -, hok⟩
    obtain ⟨cs, hwf, -, rfl⟩ := exists_chunks_of_ok f o [] hok
    exact ⟨cs, hwf, rfl⟩
  · rintro ⟨cs, hwf, rfl⟩
    exact ⟨frameBytes cs, ⟨cs, hwf, rfl⟩, decodeFrame_terminated cs hwf []⟩

/-- A message is what grammar chunks stand for exactly when it needs no padding (R124). -/
theorem exists_chunks_iff_padding (o : List Byte) :
    (∃ cs, chunksWf cs = true ∧ chunksDecoded cs = o) ↔ padding o = 0 := by
  constructor
  · rintro ⟨cs, hwf, rfl⟩
    exact padding_chunksDecoded cs hwf
  · intro hpad
    have hdecoded := (chunking o).chunksDecoded_eq
    rw [hpad] at hdecoded
    exact ⟨chunksOf o, (chunking o).chunksWf_eq_true, hdecoded.trans (List.append_nil o)⟩

/-- Settles O59: outputs of frames, concatenations of blocks and messages without padding are all what grammar chunks stand
for; and without padding the encoder holds no rest. -/
theorem decoderRange : Obligations.DecoderRange := by
  intro o s hregs hmoves
  obtain ⟨cs, r, hparsed, hrun⟩ := exists_runFor_encPuts_reset o s [] hregs (hmoves.trans (List.append_nil _).symm)
  rw [isFrame_output_iff o]
  refine ⟨⟨?_, ?_⟩, exists_chunks_iff_padding o, ⟨fun hpad => ?_, ?_⟩, fun hpad => ?_⟩
  · rintro ⟨cs, hwf, rfl⟩
    exact ⟨_, chunksDecoded_isBlocks cs hwf⟩
  · rintro ⟨ws, hblocks, rfl⟩
    exact exists_chunks_of_blocks ws hblocks
  · obtain rfl := hparsed.padding_eq_zero_iff.mp hpad
    exact ⟨_, hrun, EncState.holding_nil⟩
  · rintro ⟨t, ht, hreset⟩
    rw [hrun] at ht
    cases ht
    have hlen : r.length = 0 := congrArg EncState.run hreset
    exact hparsed.padding_eq_zero_iff.mpr (List.eq_nil_of_length_eq_zero hlen)
  · have hok := decodeFrame_encodeMessage_self o
    rwa [hpad, zeros, List.replicate_zero, List.append_nil] at hok

end Sys2Proof.Machine
end

