-- ==== Sys2Proof/Proofs/InstructionWords.lean ====
section
/-! Words and instructions (30_encoding.md R55 to R64, 10_state.md R17, 60_exceptions.md R128): `decode` and `encode` undo
each other, byte position by byte position and port by port. -/

namespace Sys2Proof

/-- What a code position reads is encoded by the byte read (R63). -/
theorem encode_decodeCode (b : Byte) : encode (decodeCode b) = .code b := by
  by_cases hzero : b = 0x00#8
  · rw [hzero]
    rfl
  · rcases codeByte_cases b hzero with ⟨m, hm, rfl⟩ | ⟨n, hn, rfl⟩ | rfl
    · rw [decodeCode_maskByte m hm, encode]
    · rw [decodeCode_runByte n hn, encode]
    · rfl

/-- What a literal position reads is encoded by the byte read (R63). -/
theorem encode_decodeLiteral (b : Byte) : encode (decodeLiteral b) = .literal b := by
  by_cases hzero : b = 0x00#8
  · rw [hzero]
    rfl
  · rw [decodeLiteral_of_ne b hzero, encode]

/-- A code position reads well-formed instructions only (R57, R58). -/
theorem wellFormed_decodeCode (b : Byte) : (decodeCode b).WellFormed := by
  by_cases hzero : b = 0x00#8
  · rw [hzero]
    rfl
  · rcases codeByte_cases b hzero with ⟨m, hm, rfl⟩ | ⟨n, hn, rfl⟩ | rfl
    · rw [decodeCode_maskByte m hm]
      exact bne_iff_ne.mpr hm
    · rw [decodeCode_runByte n hn]
      exact bne_iff_ne.mpr hn
    · rfl

/-- A literal position reads well-formed instructions only (R54, R65). -/
theorem wellFormed_decodeLiteral (b : Byte) : (decodeLiteral b).WellFormed := by
  by_cases hzero : b = 0x00#8
  · rw [hzero]
    rfl
  · rw [decodeLiteral_of_ne b hzero]
    exact bne_iff_ne.mpr hzero

/-- Whatever a word decodes to is well formed. -/
theorem wellFormed_of_decode (w : TableWord) (i : Instr) (h : decode w = .ok i) : i.WellFormed := by
  cases w with
  | code b => cases h; exact wellFormed_decodeCode b
  | literal b => cases h; exact wellFormed_decodeLiteral b
  | encIn p => cases h; split <;> rfl
  | decIn p => cases h; split <;> rfl
  | rst blk level =>
    rw [decode] at h
    split at h
    · cases h; rfl
    · cases h

/-- The marker bit tells the port words from 256 on (R17). -/
theorem markerOf_eq_true_iff (p : PortBits) : markerOf p = true ↔ 256 ≤ p.toNat := by
  have hmsb : markerOf p = p.msb := (BitVec.msb_eq_getLsbD_last p).symm
  rw [hmsb, BitVec.msb_eq_decide, decide_eq_true_iff]

/-- The run length of a RUN byte is the byte less 121 (R61, R63). -/
theorem runField_toNat (c : Byte) (h : 0x80 ≤ c.toNat) : (c.setWidth 7).toNat + 7 = c.toNat - 121 := by
  have hfield := runByte_toNat (c.setWidth 7)
  rw [runByte_setWidth c h] at hfield
  omega

/-- Settles O29, instruction by instruction: the operand's constraint keeps its word from being another row's. -/
theorem decodeOfEncodeIsTheInstruction : Obligations.DecodeOfEncodeIsTheInstruction := by
  intro i hwf
  cases i with
  | frameEnd => rfl
  | mask m => exact congrArg Except.ok (decodeCode_maskByte m (bne_iff_ne.mp hwf))
  | run n => exact congrArg Except.ok (decodeCode_runByte n (bne_iff_ne.mp hwf))
  | run134 => rfl
  | literal v => exact congrArg Except.ok (decodeLiteral_of_ne v (bne_iff_ne.mp hwf))
  | zeroInLiteral => rfl
  | encPut b => simp [encode, decode]
  | encEnd => rfl
  | decPut c => simp [encode, decode]
  | decEoi => rfl
  | reset blk => rfl

/-- Settles O30: the inverse lemmas for the two byte positions, and the marker bit for the two ports. -/
theorem frameBytesAndPortWordsDecode : Obligations.FrameBytesAndPortWordsDecode := by
  intro w
  have hport (p : PortBits) (put marker : Instr) :
      (if markerOf p then marker else put) = if p.toNat < 256 then put else marker := by
    have hmarker := markerOf_eq_true_iff p
    by_cases hlow : p.toNat < 256
    · rw [if_pos hlow, if_neg (by rw [hmarker]; omega)]
    · rw [if_neg hlow, if_pos (by rw [hmarker]; omega)]
  refine ⟨wellFormed_of_decode w, ?_, ?_, ?_, fun b => ⟨?_, ?_⟩⟩
  · rintro b (rfl | rfl)
    · exact ⟨_, rfl, encode_decodeCode b⟩
    · exact ⟨_, rfl, encode_decodeLiteral b⟩
  · rintro p rfl
    exact congrArg Except.ok (hport p _ _)
  · rintro p rfl
    exact congrArg Except.ok (hport p _ _)
  · exact decodeOfEncodeIsTheInstruction (.encPut b) rfl
  · exact decodeOfEncodeIsTheInstruction (.decPut b) rfl

/-- Settles O31: the ranges by `decodeCode_of_mask_range` and `decodeCode_of_run_range`, where the field is the byte's low
bits. -/
theorem codePositionOpcodeMap : Obligations.CodePositionOpcodeMap := by
  intro c
  refine ⟨fun hzero => ?_, fun hlo hhi => ⟨c.setWidth 7, ?_, ?_, rfl⟩, fun hlo hhi => ⟨c.setWidth 7, ?_, ?_⟩, fun hff => ?_,
    fun hne => ?_, fun hzero => ?_⟩
  · obtain rfl : c = 0x00#8 := BitVec.eq_of_toNat_eq hzero
    exact ⟨rfl, rfl⟩
  · exact congrArg Except.ok (decodeCode_of_mask_range c hlo hhi)
  · rw [BitVec.toNat_setWidth]
    omega
  · exact congrArg Except.ok (decodeCode_of_run_range c hlo hhi)
  · exact runField_toNat c hlo
  · obtain rfl : c = 0xFF#8 := BitVec.eq_of_toNat_eq hff
    exact ⟨rfl, rfl⟩
  · exact congrArg Except.ok (decodeLiteral_of_ne c fun h => hne (congrArg BitVec.toNat h))
  · obtain rfl : c = 0x00#8 := BitVec.eq_of_toNat_eq hzero
    rfl

/-- Settles O33, word by word. -/
theorem sampleWordsDecode : Obligations.SampleWordsDecode :=
  ⟨rfl, rfl, rfl, rfl, rfl, rfl, rfl, rfl, rfl, rfl, rfl⟩

/-- Settles O34, status by status. -/
theorem statusCodes : Obligations.StatusCodes := by
  refine ⟨rfl, rfl, rfl, fun st => ?_, rfl⟩
  match st with
  | .ok => decide
  | .malformedFrame .truncated => decide
  | .malformedFrame .noTerminator => decide

end Sys2Proof
end

