-- ==== Sys2Proof/Proofs/MoveRules.lean ====
section
/-! Steps, move by move (10_state.md R15, 20_memory.md R45 to R48): input words, output transfers, and the moves that are no
event. -/

namespace Sys2Proof.Machine

/-- A move that carries a word runs the word. -/
theorem runMove_of_word (mv : Move) (w : TableWord) (s : State) (h : mv.word = some w) : runMove mv s = runWord w s := by
  cases mv with
  | encIn v => cases h; rfl
  | decIn v => cases h; rfl
  | rst blk level => cases h; rfl
  | encOut => cases h
  | decOut => cases h

/-- A word that decodes runs its instruction. -/
theorem runWord_of_decode (w : TableWord) (i : Instr) (s : State) (h : decode w = .ok i) : runWord w s = exec i s := by
  simp only [runWord, h]

/-- A step makes the first move. -/
theorem step_cons (s : State) (mv : Move) (rest : List Move) (h : s.moves = mv :: rest) :
    step s = runMove mv { s with moves := rest } := by
  simp only [step, h]

/-- An output transfer of the encoder hands over the oldest pending byte (R48). -/
theorem step_encOut_cons (s : State) (rest : List Move) (b : Byte) (bs : List Byte) (hmoves : s.moves = .encOut :: rest)
    (hout : s.encOut = b :: bs) :
    step s = .next { s with moves := rest, encOut := bs, encSent := s.encSent ++ [b] } :=
  (step_cons s _ rest hmoves).trans (congrArg _ (acceptEnc_cons { s with moves := rest } b bs hout))

/-- With nothing pending at the encoder only the move is taken (R52). -/
theorem step_encOut_nil (s : State) (rest : List Move) (hmoves : s.moves = .encOut :: rest) (hout : s.encOut = []) :
    step s = .next { s with moves := rest } :=
  (step_cons s _ rest hmoves).trans (congrArg _ (acceptEnc_nil { s with moves := rest } hout))

/-- An output transfer of the decoder hands over the oldest pending event (R48). -/
theorem step_decOut_cons (s : State) (rest : List Move) (e : DecEvent) (es : List DecEvent)
    (hmoves : s.moves = .decOut :: rest) (hout : s.decOut = e :: es) :
    step s = .next { s with moves := rest, decOut := es, decSent := s.decSent ++ [e] } :=
  (step_cons s _ rest hmoves).trans (congrArg _ (acceptDec_cons { s with moves := rest } e es hout))

/-- With nothing pending at the decoder only the move is taken (R52). -/
theorem step_decOut_nil (s : State) (rest : List Move) (hmoves : s.moves = .decOut :: rest) (hout : s.decOut = []) :
    step s = .next { s with moves := rest } :=
  (step_cons s _ rest hmoves).trans (congrArg _ (acceptDec_nil { s with moves := rest } hout))

/-- Settles O18: the move runs its word, and the word its instruction. -/
theorem stepRunsTheDecodedInstruction : Obligations.StepRunsTheDecodedInstruction := by
  intro s mv rest w i hmoves hword hdecode
  rw [step_cons s mv rest hmoves, runMove_of_word mv w _ hword, runWord_of_decode w i _ hdecode]

/-- Settles O19: one rule for each port, with and without something pending. -/
theorem outputTransferIsLosslessAndInOrder : Obligations.OutputTransferIsLosslessAndInOrder := fun s rest =>
  ⟨step_encOut_cons s rest, step_encOut_nil s rest, step_decOut_cons s rest, step_decOut_nil s rest⟩

/-- Settles O20: no move, and a reset line that is not asserted. -/
theorem noEventChangesNothing : Obligations.NoEventChangesNothing := by
  refine fun s => ⟨fun hmoves => ?_, fun blk rest hmoves => ?_⟩
  · simp only [step, hmoves]
  · rw [step_cons s _ rest hmoves]
    rfl

/-- Every instruction completes, in every state (R160). -/
theorem exec_completes (i : Instr) (s : State) : ∃ t, exec i s = .next t := by
  cases i <;> exact ⟨_, rfl⟩

/-- Every word completes. -/
theorem runWord_completes (w : TableWord) (s : State) : ∃ t, runWord w s = .next t := by
  cases hdecode : decode w with
  | ok i => rw [runWord_of_decode w i s hdecode]; exact exec_completes i s
  | error e => exact ⟨s, by simp only [runWord, hdecode]⟩

/-- Every move completes. -/
theorem runMove_completes (mv : Move) (s : State) : ∃ t, runMove mv s = .next t := by
  cases mv with
  | encIn w => exact runWord_completes (.encIn w) s
  | decIn w => exact runWord_completes (.decIn w) s
  | rst blk level => exact runWord_completes (.rst blk level) s
  | encOut => exact ⟨_, rfl⟩
  | decOut => exact ⟨_, rfl⟩

/-- Settles O21: every instruction completes, so every move does, so every step. -/
theorem everyInstructionAndStepCompletes : Obligations.EveryInstructionAndStepCompletes := by
  refine ⟨exec_completes, fun s => ?_⟩
  cases hmoves : s.moves with
  | nil => exact ⟨s, (noEventChangesNothing s).1 hmoves⟩
  | cons mv rest => rw [step_cons s mv rest hmoves]; exact runMove_completes mv _

end Sys2Proof.Machine
end

