-- ==== Sys2Proof/Proofs/ResetMidMessage.lean ====
section
/-! A `RESET` of the encoder in mid-message (70_reset_and_hazards.md R146, R157; decision D15): the chunks sent before it and
the frame sent after it are one frame to a decoder. -/

namespace Sys2Proof.Machine

/-- At least as many transfers as pending bytes hand over all of them, in order (R48). -/
theorem runFor_encOuts (n : Nat) (s : State) (more : List Move) (hmoves : s.moves = List.replicate n .encOut ++ more)
    (hlen : s.encOut.length ≤ n) :
    runFor n s = .next { s with moves := more, encOut := [], encSent := s.encSent ++ s.encOut } := by
  induction n generalizing s with
  | zero =>
    obtain rfl : s.moves = more := hmoves
    have hnil : s.encOut = [] := List.eq_nil_of_length_eq_zero (Nat.le_zero.mp hlen)
    rw [runFor_zero, hnil, List.append_nil, ← hnil]
  | succ n ih =>
    rw [List.replicate_succ, List.cons_append] at hmoves
    cases hout : s.encOut with
    | nil =>
      rw [runFor_succ n s _ (step_encOut_nil s _ hmoves hout),
        ih { s with moves := List.replicate n .encOut ++ more } rfl (by simp [hout]), hout]
    | cons b bs =>
      rw [hout, List.length_cons] at hlen
      rw [runFor_succ n s _ (step_encOut_cons s _ b bs hmoves hout),
        ih { s with moves := List.replicate n .encOut ++ more, encOut := bs, encSent := s.encSent ++ [b] } rfl
          (Nat.le_of_succ_le_succ hlen), List.append_assoc, List.singleton_append]

/-- `RESET`, then a message: what is pending and held is lost, and the frame of the message is emitted (R85, R146). -/
theorem runFor_reset_encMessage (b : List Byte) (s : State) (more : List Move)
    (hmoves : s.moves = .rst .encoder 1#1 :: (encMessage b ++ more)) :
    runFor (1 + (encMessage b).length) s =
      .next { s with moves := more, enc := EncState.reset, encOut := encodeMessage b } := by
  have hstep := (step_reset s .encoder _ hmoves).trans (exec_reset_encoder _)
  rw [Nat.add_comm, runFor_succ _ s _ hstep, runFor_encMessage b _ more rfl rfl]
  rfl

/-- A decoder reads grammar chunks and the frame of a message behind them as one frame (R70). -/
theorem decodeFrame_chunksBytes_encodeMessage (cs : List Chunk) (hwf : chunksWf cs = true) (b : List Byte) :
    decodeFrame (chunksBytes cs ++ encodeMessage b) = .ok (chunksDecoded cs ++ b ++ zeros (padding b)) [] := by
  have hall := (chunksWf_append cs (chunksOf b)).mpr ⟨hwf, (chunking b).chunksWf_eq_true⟩
  have hok := decodeFrame_terminated (cs ++ chunksOf b) hall []
  rwa [chunksBytes_append, List.append_assoc, chunksDecoded_append, (chunking b).chunksDecoded_eq, ← List.append_assoc
    (chunksDecoded cs)] at hok

/-- Settles O60, run after run: the `PUT`s of `b`, the transfers, the `RESET` with the message `b'`. -/
theorem resetInMidMessageJoinsTwoFrames : Obligations.ResetInMidMessageJoinsTwoFrames := by
  intro b b' n s hregs hpending hn hmoves
  obtain ⟨cs, r, hparsed, hputs⟩ := exists_runFor_encPuts_reset b s _ hregs hmoves
  rw [hpending, List.nil_append] at hputs
  have hfits : (chunksBytes cs).length ≤ n := by
    rw [hparsed.encodeMessage_eq, List.length_append] at hn
    omega
  have houts := runFor_encOuts n
    { s with
      moves := List.replicate n .encOut ++ .rst .encoder 1#1 :: encMessage b'
      enc := EncState.holding r
      encOut := chunksBytes cs } _ rfl hfits
  have hlen : b'.length + 1 = (encMessage b').length := by
    rw [encMessage, encPuts, List.length_append, List.length_map, List.length_singleton]
  have hreset := runFor_reset_encMessage b'
    { s with
      moves := .rst .encoder 1#1 :: encMessage b'
      enc := EncState.holding r
      encOut := []
      encSent := s.encSent ++ chunksBytes cs } [] (congrArg (_ :: ·) (List.append_nil _).symm)
  rw [← hlen] at hreset
  have hrun := (runFor_add b.length _ s _ hputs).trans ((runFor_add n _ _ _ houts).trans hreset)
  exact ⟨_, _, cs, hputs, rfl, hparsed.wf, hparsed.unfinished.length_le, hparsed.length_rest_le,
    hparsed.chunksDecoded_eq_take, hrun, rfl, List.append_assoc _ _ _,
    decodeFrame_chunksBytes_encodeMessage cs hparsed.wf b'⟩

end Sys2Proof.Machine
end

