-- ==== Sys2Proof/Proofs/InstructionEffects.lean ====
section
/-! What an instruction can do at all (20_memory.md R47, R49, R51): a frame-byte instruction is its byte; an instruction
other than RESET reads the registers of its own block, writes them, appends to that block's output, and leaves the rest;
and one that emits an `END` event leaves the decoder at a frame boundary (70_reset_and_hazards.md R148). -/

namespace Sys2Proof.Machine

/-! A frame-byte instruction is its byte. -/

/-- In a literal position an instruction of a code position is its byte (log 7). -/
theorem inCodePosition_of_literal (c : Byte) (effect : State → State) (s : State) (h : s.dec.ctl.position = .literal) :
    inCodePosition c effect s = readByte c s := by
  cases hctl : s.dec.ctl with
  | code => rw [hctl] at h; cases h
  | lit cnt az => simp only [inCodePosition, hctl]
  | mask m idx => simp only [inCodePosition, hctl]

/-- An instruction of a code position that a code position reads from a byte is the byte. -/
theorem exec_eq_decPut_of_code (i : Instr) (c : Byte) (effect : State → State) (s : State) (hdecode : decodeCode c = i)
    (hexec : exec i s = .next (inCodePosition c effect s)) : exec i s = exec (.decPut c) s := by
  cases hpos : s.dec.ctl.position with
  | code => rw [exec_decPut_code s c (s.dec.ctl.eq_code_of_position hpos), hdecode]
  | literal => exact hexec.trans (congrArg _ (inCodePosition_of_literal c effect s hpos))

/-- An instruction that a literal position reads from a byte is the byte, if it is so in the code position. -/
theorem exec_eq_decPut_of_literal (i : Instr) (c : Byte) (s : State) (hdecode : decodeLiteral c = i)
    (hcode : s.dec.ctl = .code → exec i s = .next (readByte c s)) : exec i s = exec (.decPut c) s := by
  cases hpos : s.dec.ctl.position with
  | code => exact hcode (s.dec.ctl.eq_code_of_position hpos)
  | literal => rw [exec_decPut_literal s c hpos, hdecode]

/-- Settles O17: in its own position the byte is read as the instruction, in the other the instruction is read as the
byte. -/
theorem frameByteInstructionIsItsByte : Obligations.FrameByteInstructionIsItsByte := by
  intro i b hwf hword s
  cases i with
  | frameEnd =>
    obtain rfl : 0x00#8 = b := by simpa [encode] using hword
    exact exec_eq_decPut_of_code _ _ _ s rfl rfl
  | mask m =>
    obtain rfl : maskByte m = b := by simpa [encode] using hword
    exact exec_eq_decPut_of_code _ _ _ s (decodeCode_maskByte m (bne_iff_ne.mp hwf)) rfl
  | run n =>
    obtain rfl : runByte n = b := by simpa [encode] using hword
    exact exec_eq_decPut_of_code _ _ _ s (decodeCode_runByte n (bne_iff_ne.mp hwf)) rfl
  | run134 =>
    obtain rfl : 0xFF#8 = b := by simpa [encode] using hword
    exact exec_eq_decPut_of_code _ _ _ s rfl rfl
  | literal v =>
    obtain rfl : v = b := by simpa [encode] using hword
    refine exec_eq_decPut_of_literal _ _ s (decodeLiteral_of_ne v (bne_iff_ne.mp hwf)) fun hcode => ?_
    simp only [exec, execLiteral, hcode]
  | zeroInLiteral =>
    obtain rfl : 0x00#8 = b := by simpa [encode] using hword
    refine exec_eq_decPut_of_literal _ _ s rfl fun hcode => ?_
    simp only [exec, execZeroInLiteral, hcode]
  | encPut c => simp [encode] at hword
  | encEnd => simp [encode] at hword
  | decPut c => simp [encode] at hword
  | decEoi => simp [encode] at hword
  | reset blk => simp [encode] at hword

/-! The decoder's instructions. -/

/-- `f` acts on the decoder alone: what it writes to the decoder's registers and appends to its output is a function of these
registers, and after an `END` event they are the reset registers (R49, R148). -/
def ActsOnDecoder (f : State → State) : Prop :=
  ∀ d : DecState, ∃ d' out, (∀ st, DecEvent.frameEnd st ∈ out → d' = DecState.reset) ∧
    ∀ s : State, s.dec = d → f s = { s with dec := d', decOut := s.decOut ++ out }

namespace ActsOnDecoder

/-- An operation may choose by the decoder's registers among such operations. -/
theorem of_dec {f : State → State} (h : ∀ d, ∃ g, ActsOnDecoder g ∧ ∀ s : State, s.dec = d → f s = g s) :
    ActsOnDecoder f := by
  intro d
  obtain ⟨g, hg, hfg⟩ := h d
  obtain ⟨d', out, hend, heq⟩ := hg d
  exact ⟨d', out, hend, fun s hs => (hfg s hs).trans (heq s hs)⟩

/-- The same by the decoder's mode. -/
theorem of_ctl {f : State → State} (h : ∀ c, ∃ g, ActsOnDecoder g ∧ ∀ s : State, s.dec.ctl = c → f s = g s) :
    ActsOnDecoder f := of_dec fun d =>
  let ⟨g, hg, hfg⟩ := h d.ctl
  ⟨g, hg, fun s hs => hfg s (congrArg DecState.ctl hs)⟩

/-- An operation may choose between two by something that is not in the state. -/
theorem ite {p : Prop} [Decidable p] {f g : State → State} (hf : ActsOnDecoder f) (hg : ActsOnDecoder g) :
    ActsOnDecoder fun s => if p then f s else g s := by
  by_cases hp : p
  · simpa only [hp, if_true] using hf
  · simpa only [hp, if_false] using hg

/-- An operation that emits `DATA` only has no `END` to answer for. -/
theorem of_data {f : State → State} (d' : DecState → DecState) (bs : DecState → List Byte)
    (h : ∀ s : State, f s = { s with dec := d' s.dec, decOut := s.decOut ++ dataEvents (bs s.dec) }) : ActsOnDecoder f := by
  refine fun d => ⟨d' d, dataEvents (bs d), fun st hmem => ?_, fun s hs => hs ▸ h s⟩
  obtain ⟨b, -, hb⟩ := List.mem_map.mp hmem
  cases hb

/-- An operation that emits nothing. -/
theorem of_silent {f : State → State} (d' : DecState → DecState) (h : ∀ s : State, f s = s.setDec (d' s.dec)) :
    ActsOnDecoder f :=
  of_data d' (fun _ => []) fun s => (h s).trans (congrArg (fun out => { s with dec := d' s.dec, decOut := out })
    (List.append_nil s.decOut).symm)

/-! One lemma per operation of the decoder. -/

theorem endFrame : ActsOnDecoder endFrame := fun _ => ⟨_, _, fun _ _ => rfl, fun _ _ => rfl⟩

theorem raiseMalformed (cause : Cause) : ActsOnDecoder (raiseMalformed cause) :=
  fun _ => ⟨_, _, fun _ _ => rfl, fun _ _ => rfl⟩

theorem startLit (cnt : Nat) (az : Bool) : ActsOnDecoder (startLit cnt az) :=
  of_silent (fun _ => ⟨.lit cnt az, true⟩) fun _ => rfl

theorem startMask (m : Bits7) : ActsOnDecoder (startMask m) :=
  of_data (fun _ => ⟨ctlAt m (skipZeros m 7 0), true⟩) (fun _ => zeros (skipZeros m 7 0 - 0)) fun _ => rfl

theorem takeMaskLiteral (c : Byte) (m : Bits7) (idx : Nat) : ActsOnDecoder (takeMaskLiteral c m idx) :=
  of_data (fun d => ⟨ctlAt m (skipZeros m 7 (idx + 1)), d.inframe⟩)
    (fun _ => c :: zeros (skipZeros m 7 (idx + 1) - (idx + 1))) fun s => by
      rw [Machine.takeMaskLiteral, drain_eq, State.emitEvents_decOut, List.append_assoc]
      rfl

theorem takeRunLiteral (c : Byte) (cnt : Nat) (az : Bool) : ActsOnDecoder (takeRunLiteral c cnt az) :=
  ite (of_data (fun d => ⟨.code, d.inframe⟩) (fun _ => c :: impliedZero az) fun s => by cases az <;> rfl)
    (of_data (fun d => ⟨.lit (cnt - 1) az, d.inframe⟩) (fun _ => [c]) fun _ => rfl)

theorem readCode (c : Byte) : ActsOnDecoder (readCode c) :=
  ite endFrame (ite (startLit 134 false) (ite (startLit _ true) (startMask _)))

theorem readRunLiteral (c : Byte) (cnt : Nat) (az : Bool) : ActsOnDecoder (readRunLiteral c cnt az) :=
  ite (raiseMalformed .truncated) (takeRunLiteral c cnt az)

theorem readMaskLiteral (c : Byte) (m : Bits7) (idx : Nat) : ActsOnDecoder (readMaskLiteral c m idx) :=
  ite (raiseMalformed .truncated) (takeMaskLiteral c m idx)

theorem readByte (c : Byte) : ActsOnDecoder (readByte c) := of_ctl fun ctl =>
  match ctl with
  | .code => ⟨_, readCode c, fun s h => readByte_code c s h⟩
  | .lit cnt az => ⟨_, readRunLiteral c cnt az, fun s h => by simp only [Machine.readByte, h]⟩
  | .mask m idx => ⟨_, readMaskLiteral c m idx, fun s h => by simp only [Machine.readByte, h]⟩

theorem inCodePosition (c : Byte) {effect : State → State} (h : ActsOnDecoder effect) :
    ActsOnDecoder (inCodePosition c effect) := of_ctl fun ctl => by
  by_cases hctl : ctl = .code
  · exact ⟨effect, h, fun s hs => by simp only [Machine.inCodePosition, hs, hctl]⟩
  · refine ⟨_, readByte c, fun s hs => inCodePosition_of_literal c effect s ?_⟩
    cases ctl with
    | code => exact absurd rfl hctl
    | lit cnt az => rw [hs]; rfl
    | mask m idx => rw [hs]; rfl

end ActsOnDecoder

/-- Every instruction of the decoder other than RESET acts on the decoder alone. -/
theorem exec_actsOnDecoder (i : Instr) (hblock : blockOf i = .decoder) (hreset : isReset i = false) :
    ∃ f, ActsOnDecoder f ∧ ∀ s, exec i s = .next (f s) := by
  cases i with
  | frameEnd => exact ⟨_, .inCodePosition _ .endFrame, fun _ => rfl⟩
  | mask m => exact ⟨_, .inCodePosition _ (.startMask m), fun _ => rfl⟩
  | run n => exact ⟨_, .inCodePosition _ (.startLit _ true), fun _ => rfl⟩
  | run134 => exact ⟨_, .inCodePosition _ (.startLit 134 false), fun _ => rfl⟩
  | literal v =>
    refine ⟨_, .of_ctl fun ctl => ?_, fun _ => rfl⟩
    match ctl with
    | .code => exact ⟨_, .readByte v, fun s h => by simp only [h]⟩
    | .lit cnt az => exact ⟨_, .takeRunLiteral v cnt az, fun s h => by simp only [h]⟩
    | .mask m idx => exact ⟨_, .takeMaskLiteral v m idx, fun s h => by simp only [h]⟩
  | zeroInLiteral =>
    refine ⟨_, .of_ctl fun ctl => ?_, fun _ => rfl⟩
    match ctl with
    | .code => exact ⟨_, .readByte 0x00#8, fun s h => by simp only [h]⟩
    | .lit cnt az => exact ⟨_, .raiseMalformed .truncated, fun s h => by simp only [h]⟩
    | .mask m idx => exact ⟨_, .raiseMalformed .truncated, fun s h => by simp only [h]⟩
  | encPut b => cases hblock
  | encEnd => cases hblock
  | decPut c => exact ⟨_, .readByte c, fun _ => rfl⟩
  | decEoi =>
    refine ⟨_, .of_dec fun d => ⟨_, .ite (p := d.inframe = true) (.raiseMalformed .noTerminator)
      (.of_silent id fun s => rfl), fun s h => ?_⟩, fun _ => rfl⟩
    rw [← h]
    rfl
  | reset blk => cases hreset

/-! The encoder's instructions. -/

/-- `f` acts on the encoder alone: what it writes to the encoder's registers and appends to its output is a function of these
registers (R49). -/
def ActsOnEncoder (f : State → State) : Prop :=
  ∀ e : EncState, ∃ e' out, ∀ s : State, s.enc = e → f s = { s with enc := e', encOut := s.encOut ++ out }

namespace ActsOnEncoder

/-- An operation may choose by the encoder's registers among such operations. -/
theorem of_enc {f : State → State} (h : ∀ e, ∃ g, ActsOnEncoder g ∧ ∀ s : State, s.enc = e → f s = g s) :
    ActsOnEncoder f := by
  intro e
  obtain ⟨g, hg, hfg⟩ := h e
  obtain ⟨e', out, heq⟩ := hg e
  exact ⟨e', out, fun s hs => (hfg s hs).trans (heq s hs)⟩

theorem ite {p : Prop} [Decidable p] {f g : State → State} (hf : ActsOnEncoder f) (hg : ActsOnEncoder g) :
    ActsOnEncoder fun s => if p then f s else g s := by
  by_cases hp : p
  · simpa only [hp, if_true] using hf
  · simpa only [hp, if_false] using hg

/-! One lemma per operation of the encoder. -/

/-- Doing nothing. -/
theorem refl : ActsOnEncoder fun s => s := fun e =>
  ⟨e, [], fun s hs => by rw [List.append_nil, ← hs]⟩

theorem setEnc (e : EncState) : ActsOnEncoder fun s => s.setEnc e := fun _ =>
  ⟨e, [], fun s _ => congrArg (fun out => { s with enc := e, encOut := out }) (List.append_nil s.encOut).symm⟩

theorem flush (code : Byte) : ActsOnEncoder (flush code) := fun e =>
  ⟨EncState.reset, code :: e.lits, fun s hs => hs ▸ flush_eq code s⟩

/-- A chunk of given bytes is emitted and the registers are cleared. -/
theorem emitChunk (bs : List Byte) :
    ActsOnEncoder fun s => { s with enc := EncState.reset, encOut := s.encOut ++ bs } :=
  fun _ => ⟨EncState.reset, bs, fun _ _ => rfl⟩

/-- With the registers given, completing a window acts on the encoder alone (R75). -/
theorem completeWindow (e : EncState) : ActsOnEncoder fun s => completeWindow (s.setEnc e) := by
  simpa only [completeWindow_setEnc] using ite (emitChunk _) (setEnc e)

/-- With the registers given, completing a run acts on the encoder alone (R78). -/
theorem completeRun (e : EncState) : ActsOnEncoder fun s => completeRun (s.setEnc e) := by
  simpa only [completeRun_setEnc] using ite (emitChunk _) (setEnc e)

theorem putWindow (b : Byte) : ActsOnEncoder (putWindow b) := of_enc fun e => by
  by_cases hb : b = 0x00#8
  · exact ⟨_, completeWindow ⟨e.run + 1, e.zeros ||| (1#7 <<< e.run), e.lits⟩, fun s hs => by
      rw [hb, putWindow_zero, hs]⟩
  · exact ⟨_, completeWindow ⟨e.run + 1, e.zeros, e.lits ++ [b]⟩, fun s hs => by rw [putWindow_of_ne s b hb, hs]⟩

theorem putRun (b : Byte) : ActsOnEncoder (putRun b) := of_enc fun e => by
  by_cases hb : b = 0x00#8
  · exact ⟨_, flush (runCode e.run), fun s hs => hs ▸ if_pos hb⟩
  · exact ⟨_, completeRun ⟨e.run + 1, e.zeros, e.lits ++ [b]⟩, fun s hs => by rw [putRun_of_ne s b hb, hs]⟩

theorem putByte (b : Byte) : ActsOnEncoder (putByte b) := of_enc fun e =>
  ⟨_, ite (p := e.run < 7) (putWindow b) (putRun b), fun _ hs => hs ▸ rfl⟩

theorem closeChunk : ActsOnEncoder closeChunk := of_enc fun e =>
  ⟨_, ite (p := e.run = 0) refl
    (ite (p := e.run < 7) (flush (maskByte (e.zeros ||| padBits e.run))) (flush (runCode e.run))), fun _ hs => hs ▸ rfl⟩

/-- Bytes emitted behind such an operation. -/
theorem emitBytes {f : State → State} (hf : ActsOnEncoder f) (bs : List Byte) :
    ActsOnEncoder fun s => (f s).emitBytes bs := by
  intro e
  obtain ⟨e', out, heq⟩ := hf e
  refine ⟨e', out ++ bs, fun s hs => (congrArg (State.emitBytes · bs) (heq s hs)).trans ?_⟩
  rw [State.emitBytes, List.append_assoc]

end ActsOnEncoder

/-- Every instruction of the encoder other than RESET acts on the encoder alone. -/
theorem exec_actsOnEncoder (i : Instr) (hblock : blockOf i = .encoder) (hreset : isReset i = false) :
    ∃ f, ActsOnEncoder f ∧ ∀ s, exec i s = .next (f s) := by
  cases i with
  | encPut b => exact ⟨_, .putByte b, exec_encPut b⟩
  | encEnd => exact ⟨_, .emitBytes .closeChunk [0x00#8], exec_encEnd⟩
  | reset blk => cases hreset
  | frameEnd => cases hblock
  | mask m => cases hblock
  | run n => cases hblock
  | run134 => cases hblock
  | literal v => cases hblock
  | zeroInLiteral => cases hblock
  | decPut c => cases hblock
  | decEoi => cases hblock

/-! What follows for every instruction. -/

/-- The whole state an instruction of the encoder other than RESET leaves. -/
theorem exec_encoder_eq (i : Instr) (e : EncState) (hblock : blockOf i = .encoder) (hreset : isReset i = false) :
    ∃ e' out, ∀ s : State, s.enc = e → exec i s = .next { s with enc := e', encOut := s.encOut ++ out } := by
  obtain ⟨f, hf, hexec⟩ := exec_actsOnEncoder i hblock hreset
  obtain ⟨e', out, heq⟩ := hf e
  exact ⟨e', out, fun s hs => (hexec s).trans (congrArg _ (heq s hs))⟩

/-- The whole state an instruction of the decoder other than RESET leaves, and what an `END` event says of it. -/
theorem exec_decoder_eq (i : Instr) (d : DecState) (hblock : blockOf i = .decoder) (hreset : isReset i = false) :
    ∃ d' out, (∀ st, DecEvent.frameEnd st ∈ out → d' = DecState.reset) ∧
      ∀ s : State, s.dec = d → exec i s = .next { s with dec := d', decOut := s.decOut ++ out } := by
  obtain ⟨f, hf, hexec⟩ := exec_actsOnDecoder i hblock hreset
  obtain ⟨d', out, hend, heq⟩ := hf d
  exact ⟨d', out, hend, fun s hs => (hexec s).trans (congrArg _ (heq s hs))⟩

/-- An instruction is RESET of a block or not RESET. -/
theorem eq_reset_or_not (i : Instr) : (∃ blk, i = .reset blk) ∨ isReset i = false := by
  cases i with
  | reset blk => exact .inl ⟨blk, rfl⟩
  | _ => exact .inr rfl

/-- Settles O22: RESET by its own rules, any other instruction by the rule of its block. -/
theorem instructionFrame : Obligations.InstructionFrame := by
  intro i s t hexec
  rcases eq_reset_or_not i with ⟨blk, rfl⟩ | hreset
  · cases blk with
    | encoder =>
      rw [exec_reset_encoder] at hexec
      cases hexec
      exact ⟨rfl, rfl, rfl, nofun, fun _ => ⟨rfl, rfl⟩, nofun⟩
    | decoder =>
      rw [exec_reset_decoder] at hexec
      cases hexec
      exact ⟨rfl, rfl, rfl, nofun, nofun, fun _ => ⟨rfl, rfl⟩⟩
  · cases hblock : blockOf i with
    | encoder =>
      obtain ⟨e', out, heq⟩ := exec_encoder_eq i s.enc hblock hreset
      rw [heq s rfl] at hexec
      cases hexec
      exact ⟨rfl, rfl, rfl, fun _ => ⟨List.prefix_append _ _, List.prefix_refl _⟩, fun _ => ⟨rfl, rfl⟩, nofun⟩
    | decoder =>
      obtain ⟨d', out, -, heq⟩ := exec_decoder_eq i s.dec hblock hreset
      rw [heq s rfl] at hexec
      cases hexec
      exact ⟨rfl, rfl, rfl, fun _ => ⟨List.prefix_refl _, List.prefix_append _ _⟩, nofun, fun _ => ⟨rfl, rfl⟩⟩

/-- Settles O23: the rule of the block gives the new registers and the output from the registers alone. -/
theorem blocksDoNotInfluenceEachOther : Obligations.BlocksDoNotInfluenceEachOther := by
  intro i s s' t t' hreset hexec hexec'
  refine ⟨fun hblock hsame => ?_, fun hblock hsame => ?_⟩
  · obtain ⟨e', out, heq⟩ := exec_encoder_eq i s.enc hblock hreset
    rw [heq s rfl] at hexec
    rw [heq s' hsame.symm] at hexec'
    cases hexec
    cases hexec'
    exact ⟨rfl, out, rfl, rfl⟩
  · obtain ⟨d', out, -, heq⟩ := exec_decoder_eq i s.dec hblock hreset
    rw [heq s rfl] at hexec
    rw [heq s' hsame.symm] at hexec'
    cases hexec
    cases hexec'
    exact ⟨rfl, out, rfl, rfl⟩

/-- Settles O27: `closeChunk_enc` for the encoder; an instruction that emits an `END` event is one of the decoder. -/
theorem resetStateEqualsEndOfFrameState : Obligations.ResetStateEqualsEndOfFrameState := by
  refine ⟨fun s t hinv hexec => ?_, fun i s t st hreset hexec hmem => ?_⟩
  · rw [exec_encEnd] at hexec
    cases hexec
    exact closeChunk_enc s hinv
  · cases hblock : blockOf i with
    | encoder =>
      obtain ⟨e', out, heq⟩ := exec_encoder_eq i s.enc hblock hreset
      rw [heq s rfl] at hexec
      cases hexec
      rw [List.drop_length] at hmem
      exact absurd hmem List.not_mem_nil
    | decoder =>
      obtain ⟨d', out, hend, heq⟩ := exec_decoder_eq i s.dec hblock hreset
      rw [heq s rfl] at hexec
      cases hexec
      rw [List.drop_left] at hmem
      exact hend st hmem

/-- Settles O28: an instruction keeps the records, and a transfer appends to one of them. -/
theorem seenErrorsStaySeen : Obligations.SeenErrorsStaySeen := by
  intro s t hstep
  have hgrow : s.decSent <+: t.decSent ∧ s.encSent <+: t.encSent := by
    rcases step_cases s t hstep with ⟨-, rfl⟩ | ⟨mv, rest, -, hmove⟩
    · exact ⟨List.prefix_refl _, List.prefix_refl _⟩
    · rcases runMove_cases mv _ t hmove with ⟨w, i, -, -, hexec⟩ | ⟨blk, -, rfl⟩ | ⟨-, rfl⟩ | ⟨-, rfl⟩
      · obtain ⟨henc, hdec, -⟩ := instructionFrame i _ t hexec
        rw [henc, hdec]
        exact ⟨List.prefix_refl _, List.prefix_refl _⟩
      · exact ⟨List.prefix_refl _, List.prefix_refl _⟩
      · rw [acceptEnc]
        split
        · exact ⟨List.prefix_refl _, List.prefix_refl _⟩
        · exact ⟨List.prefix_refl _, List.prefix_append _ _⟩
      · rw [acceptDec]
        split
        · exact ⟨List.prefix_refl _, List.prefix_refl _⟩
        · exact ⟨List.prefix_append _ _, List.prefix_refl _⟩
  refine ⟨hgrow.1, hgrow.2, fun hseen => ?_⟩
  obtain ⟨more, hmore⟩ := hgrow.1
  rw [malformedSeen, ← hmore, List.any_append, ← malformedSeen, hseen, Bool.true_or]

end Sys2Proof.Machine
end

