-- ==== Sys2Proof/Proofs/StepInvariant.lean ====
section
/-! The invariants of the two blocks (10_state.md R22, R28): they hold at reset, and every well-formed instruction keeps
them, so every step does, because a step executes only what a word decodes to. -/

namespace Sys2Proof.Machine

theorem EncState.reset_inv : EncState.reset.Inv := EncState.inv_holding [] unfinished_nil

theorem Ctl.inv_lit_iff (cnt : Nat) (az : Bool) :
    (Ctl.lit cnt az).Inv ↔ 1 ≤ cnt ∧ cnt ≤ 134 ∧ (az = true → cnt ≤ 133) := by
  cases az <;> simp [Ctl.Inv, Ctl.wf, and_assoc]

theorem Ctl.inv_mask_iff (m : Bits7) (idx : Nat) :
    (Ctl.mask m idx).Inv ↔ idx < 7 ∧ m.getLsbD idx = false ∧ m ≠ 0#7 := by
  simp [Ctl.Inv, Ctl.wf, and_assoc]

/-- In mode `CODE` the decoder may stand at a frame boundary or inside a frame (R28). -/
theorem DecState.inv_code (inframe : Bool) : (DecState.mk .code inframe).Inv := ⟨rfl, fun h => absurd rfl h⟩

/-- Inside a frame only the bounds of the mode count (R28). -/
theorem DecState.inv_inframe (c : Ctl) (h : c.Inv) : (DecState.mk c true).Inv := ⟨h, fun _ => rfl⟩

theorem DecState.reset_inv : DecState.reset.Inv := DecState.inv_code false

/-- In a literal mode the invariant gives the bounds of the mode, and a frame in progress (R28). -/
theorem DecState.Inv.of_ctl {d : DecState} {c : Ctl} (h : d.Inv) (hctl : d.ctl = c) (hc : c ≠ .code) :
    c.Inv ∧ d.inframe = true :=
  ⟨hctl ▸ h.1, h.2 (hctl ▸ hc)⟩

/-- Settles O24, block by block. -/
theorem invariantHoldsAtReset : Obligations.InvariantHoldsAtReset := ⟨EncState.reset_inv, DecState.reset_inv⟩

/-! The encoder. -/

/-- `ENC.PUT` keeps the encoder's invariant: it holds one byte more, or nothing. -/
theorem putByte_inv (b : Byte) (s : State) (h : s.enc.Inv) : (putByte b s).enc.Inv := by
  obtain ⟨hheld, hregs⟩ := s.enc.eq_holding_held h
  rcases putByte_cases s _ b hheld hregs with ⟨hmore, hput⟩ | ⟨c, -, -, hput⟩
  · rw [hput]
    exact EncState.inv_holding _ hmore
  · rw [hput]
    exact EncState.reset_inv

/-- Every instruction keeps the encoder's invariant. -/
theorem exec_keeps_encInv (i : Instr) (s t : State) (h : s.enc.Inv) (hexec : exec i s = .next t) : t.enc.Inv := by
  cases hblock : blockOf i with
  | decoder =>
    obtain ⟨-, -, -, -, -, hframe⟩ := instructionFrame i s t hexec
    rw [(hframe hblock).1]
    exact h
  | encoder =>
    cases i with
    | encPut b => cases hexec; exact putByte_inv b s h
    | encEnd => cases hexec; exact closeChunk_enc s h ▸ EncState.reset_inv
    | reset blk => cases hblock; cases hexec; exact EncState.reset_inv
    | frameEnd => cases hblock
    | mask m => cases hblock
    | run n => cases hblock
    | run134 => cases hblock
    | literal v => cases hblock
    | zeroInLiteral => cases hblock
    | decPut c => cases hblock
    | decEoi => cases hblock

/-! The decoder. -/

/-- Inside a frame `drain` stops at the window's end or at a mask bit 0 (R94). -/
theorem drain_inv (m : Bits7) (idx : Nat) (s : State) (hidx : idx ≤ 7) (hm : m ≠ 0#7) (hin : s.dec.inframe = true) :
    (drain m idx s).dec.Inv := by
  obtain ⟨i, -, hi, -, hstop, hdrain⟩ := exists_drain_eq m idx s hidx
  rw [hdrain]
  by_cases hend : i = 7
  · rw [if_pos hend]
    exact DecState.inv_code _
  · have hlt : i < 7 := Nat.lt_of_le_of_ne hi hend
    rw [if_neg hend, hin]
    exact DecState.inv_inframe _ ((Ctl.inv_mask_iff m i).mpr ⟨hlt, hstop hlt, hm⟩)

/-- A literal of a run keeps the decoder's invariant (R99). -/
theorem takeRunLiteral_inv (c : Byte) (cnt : Nat) (az : Bool) (s : State) (h : s.dec.Inv) (hctl : s.dec.ctl = .lit cnt az) :
    (takeRunLiteral c cnt az s).dec.Inv := by
  obtain ⟨hbounds, hin⟩ := h.of_ctl hctl nofun
  obtain ⟨hlo, hhi, haz⟩ := (Ctl.inv_lit_iff cnt az).mp hbounds
  rw [takeRunLiteral_eq c cnt az s hlo]
  by_cases hlast : cnt = 1
  · rw [if_pos hlast]
    exact DecState.inv_code _
  · rw [if_neg hlast, hin]
    refine DecState.inv_inframe _ ((Ctl.inv_lit_iff _ az).mpr ⟨by omega, by omega, fun h => ?_⟩)
    have := haz h
    omega

/-- A code byte keeps the decoder's invariant (R92 to R96). -/
theorem readByte_code_inv (c : Byte) (s : State) (h : s.dec.ctl = .code) : (readByte c s).dec.Inv := by
  by_cases hzero : c = 0x00#8
  · rw [hzero, readByte_term s h]
    exact DecState.reset_inv
  · rcases codeByte_cases c hzero with ⟨m, hm, rfl⟩ | ⟨n, hn, rfl⟩ | rfl
    · rw [readByte_maskByte m s h hm]
      exact drain_inv m 0 _ (Nat.zero_le 7) hm rfl
    · have hfield : n.toNat ≠ 127 := fun h127 => hn (BitVec.eq_of_toNat_eq h127)
      have hlt : n.toNat < 128 := n.isLt
      rw [readByte_runByte n s h hn]
      refine DecState.inv_inframe _ ((Ctl.inv_lit_iff _ true).mpr ?_)
      rw [runLength, Config.runMin_eq]
      omega
    · rw [readByte_ff s h]
      exact DecState.inv_inframe _ rfl

/-- Reading a byte keeps the decoder's invariant (R28). -/
theorem readByte_inv (c : Byte) (s : State) (h : s.dec.Inv) : (readByte c s).dec.Inv := by
  by_cases hzero : c = 0x00#8 ∧ s.dec.ctl.position = .literal
  · obtain ⟨rfl, hlit⟩ := hzero
    rw [readByte_zero_literal s hlit]
    exact DecState.reset_inv
  · cases hctl : s.dec.ctl with
    | code => exact readByte_code_inv c s hctl
    | lit cnt az =>
      have hc : c ≠ 0x00#8 := fun hc => hzero ⟨hc, by rw [hctl]; rfl⟩
      rw [readByte_lit c cnt az s hctl hc]
      exact takeRunLiteral_inv c cnt az s h hctl
    | mask m idx =>
      have hc : c ≠ 0x00#8 := fun hc => hzero ⟨hc, by rw [hctl]; rfl⟩
      obtain ⟨hbounds, hin⟩ := h.of_ctl hctl nofun
      obtain ⟨hidx, -, hm⟩ := (Ctl.inv_mask_iff m idx).mp hbounds
      rw [readByte_mask c m idx s hctl hc]
      exact drain_inv m (idx + 1) _ hidx hm hin

/-- A frame-byte instruction keeps the decoder's invariant, because it is its byte. -/
theorem exec_frameByte_keeps_decInv (i : Instr) (b : Byte) (s t : State) (hwf : i.WellFormed)
    (hword : encode i = .code b ∨ encode i = .literal b) (h : s.dec.Inv) (hexec : exec i s = .next t) : t.dec.Inv := by
  rw [frameByteInstructionIsItsByte i b hwf hword s] at hexec
  cases hexec
  exact readByte_inv b s h

/-- Every well-formed instruction keeps the decoder's invariant. -/
theorem exec_keeps_decInv (i : Instr) (s t : State) (hwf : i.WellFormed) (h : s.dec.Inv) (hexec : exec i s = .next t) :
    t.dec.Inv := by
  cases hblock : blockOf i with
  | encoder =>
    obtain ⟨-, -, -, -, hframe, -⟩ := instructionFrame i s t hexec
    rw [(hframe hblock).1]
    exact h
  | decoder =>
    cases i with
    | frameEnd => exact exec_frameByte_keeps_decInv _ _ s t hwf (.inl rfl) h hexec
    | mask m => exact exec_frameByte_keeps_decInv _ _ s t hwf (.inl rfl) h hexec
    | run n => exact exec_frameByte_keeps_decInv _ _ s t hwf (.inl rfl) h hexec
    | run134 => exact exec_frameByte_keeps_decInv _ _ s t hwf (.inl rfl) h hexec
    | literal v => exact exec_frameByte_keeps_decInv _ _ s t hwf (.inr rfl) h hexec
    | zeroInLiteral => exact exec_frameByte_keeps_decInv _ _ s t hwf (.inr rfl) h hexec
    | decPut c => cases hexec; exact readByte_inv c s h
    | decEoi =>
      rw [exec_decEoi] at hexec
      cases hexec
      split
      · exact DecState.reset_inv
      · exact h
    | reset blk => cases hblock; cases hexec; exact DecState.reset_inv
    | encPut b => cases hblock
    | encEnd => cases hblock

/-! Steps. -/

/-- An output transfer of the encoder leaves the registers (R48). -/
theorem acceptEnc_regs (s : State) : (acceptEnc s).enc = s.enc ∧ (acceptEnc s).dec = s.dec := by
  rw [acceptEnc]
  split <;> exact ⟨rfl, rfl⟩

/-- An output transfer of the decoder leaves the registers (R48). -/
theorem acceptDec_regs (s : State) : (acceptDec s).enc = s.enc ∧ (acceptDec s).dec = s.dec := by
  rw [acceptDec]
  split <;> exact ⟨rfl, rfl⟩

/-- Settles O25: a step waits, executes what a word decodes to, which is well formed, or transfers an output event. -/
theorem stepKeepsTheInvariant : Obligations.StepKeepsTheInvariant := by
  intro s t ⟨henc, hdec⟩ hstep
  rcases step_cases s t hstep with ⟨-, rfl⟩ | ⟨mv, rest, -, hmove⟩
  · exact ⟨henc, hdec⟩
  · rcases runMove_cases mv _ t hmove with ⟨w, i, -, hdecode, hexec⟩ | ⟨blk, -, rfl⟩ | ⟨-, rfl⟩ | ⟨-, rfl⟩
    · exact ⟨exec_keeps_encInv i { s with moves := rest } t henc hexec,
        exec_keeps_decInv i { s with moves := rest } t (wellFormed_of_decode w i hdecode) hdec hexec⟩
    · exact ⟨henc, hdec⟩
    · rw [State.Inv, (acceptEnc_regs _).1, (acceptEnc_regs _).2]
      exact ⟨henc, hdec⟩
    · rw [State.Inv, (acceptDec_regs _).1, (acceptDec_regs _).2]
      exact ⟨henc, hdec⟩

/-- Settles O26: the bounds of the invariant are below 2^8 and 2^3. -/
theorem registersFitTheirWidths : Obligations.RegistersFitTheirWidths := by
  intro s ⟨henc, hdec⟩
  obtain ⟨hheld, hregs⟩ := s.enc.eq_holding_held henc
  have hlen := hheld.length_le
  refine ⟨?_, ?_, fun cnt az hctl => ⟨_, by rw [hctl]; rfl, ?_⟩, fun m idx hctl => ⟨_, by rw [hctl]; rfl, ?_⟩⟩
  · have hrun : s.enc.run ≤ 133 := henc.1
    rw [EncState.runReg, BitVec.toNat_ofNat]
    omega
  · rw [hregs]
    exact (List.length_filter_le _ _).trans hlen
  · obtain ⟨-, hhi, -⟩ := (Ctl.inv_lit_iff cnt az).mp (hdec.of_ctl hctl nofun).1
    rw [BitVec.toNat_ofNat]
    omega
  · obtain ⟨hidx, -, -⟩ := (Ctl.inv_mask_iff m idx).mp (hdec.of_ctl hctl nofun).1
    rw [BitVec.toNat_ofNat]
    omega

end Sys2Proof.Machine
end

