-- ==== Sys2Proof/Proofs/DecoderEvents.lean ====
section
/-! The decoder's transition table (41_decoder.md R106) and how much one event makes it emit (R102). -/

namespace Sys2Proof.Machine

/-- The state `drain` leaves when it passes the positions up to `i`, which ends the window or has mask bit 0 (R94). -/
theorem drain_to (m : Bits7) (idx i : Nat) (s : State) (hle : idx ≤ i) (hi : i ≤ 7)
    (hpassed : ∀ j, idx ≤ j → j < i → m.getLsbD j = true) (hstop : i < 7 → m.getLsbD i = false) :
    drain m idx s =
      { s with dec := ⟨if i = 7 then .code else .mask m i, s.dec.inframe⟩,
               decOut := s.decOut ++ List.replicate (i - idx) (.data 0x00#8) } := by
  have hskip : skipZeros m 7 idx = i := skipZeros_eq m 7 idx i (Nat.le_add_left 7 idx) hle hi hpassed hstop
  rw [drain_eq, Config.window_eq, hskip, zeros, List.map_replicate]
  rfl

/-- A bit of a byte's low seven is that bit of the byte. -/
theorem getLsbD_setWidth_seven (c : Byte) (j : Nat) (hj : j < 7) : (c.setWidth 7).getLsbD j = c.getLsbD j := by
  rw [BitVec.getLsbD_setWidth, decide_eq_true hj, Bool.true_and]

/-- A MASK code byte, to the first literal position or the window's end (R93). -/
theorem exec_decPut_mask_code (s : State) (c : Byte) (i : Nat) (hctl : s.dec.ctl = .code) (hlo : 1 ≤ c.toNat)
    (hhi : c.toNat ≤ 0x7F) (hi : i ≤ 7) (hpassed : ∀ j < i, c.getLsbD j = true) (hstop : i < 7 → c.getLsbD i = false) :
    exec (.decPut c) s = .next
      { s with dec := ⟨if i = 7 then .code else .mask (c.setWidth 7) i, true⟩,
               decOut := s.decOut ++ List.replicate i (.data 0x00#8) } := by
  rw [exec_decPut_code s c hctl, decodeCode_of_mask_range c hlo hhi, exec_mask_code s _ hctl, startMask,
    drain_to _ 0 i _ (Nat.zero_le i) hi (fun j _ hj => ?_) fun hlt => ?_]
  · rfl
  · rw [getLsbD_setWidth_seven c j (by omega), hpassed j hj]
  · rw [getLsbD_setWidth_seven c i hlt, hstop hlt]

/-- A literal of a window, to the next literal position or the window's end (R100). -/
theorem exec_decPut_mask_literal (s : State) (c : Byte) (m : Bits7) (idx i : Nat) (hctl : s.dec.ctl = .mask m idx)
    (hc : c ≠ 0x00#8) (hlt : idx < i) (hi : i ≤ 7) (hpassed : ∀ j, idx < j → j < i → m.getLsbD j = true)
    (hstop : i < 7 → m.getLsbD i = false) :
    exec (.decPut c) s = .next
      { s with dec := ⟨if i = 7 then .code else .mask m i, s.dec.inframe⟩,
               decOut := s.decOut ++ .data c :: List.replicate (i - (idx + 1)) (.data 0x00#8) } := by
  have hread : exec (.decPut c) s = .next (takeMaskLiteral c m idx s) := congrArg _ (readByte_mask c m idx s hctl hc)
  rw [hread, takeMaskLiteral, drain_to m (idx + 1) i _ hlt hi hpassed hstop, State.emitEvents_decOut, List.append_assoc]
  rfl

/-- A literal of a run (R99). -/
theorem exec_decPut_lit (s : State) (c : Byte) (cnt : Nat) (az : Bool) (hctl : s.dec.ctl = .lit cnt az) (hc : c ≠ 0x00#8)
    (hcnt : 1 ≤ cnt) :
    exec (.decPut c) s = .next
      (if cnt = 1
        then { s with dec := ⟨.code, s.dec.inframe⟩,
                      decOut := s.decOut ++ .data c :: (if az then [.data 0x00#8] else []) }
        else { s with dec := ⟨.lit (cnt - 1) az, s.dec.inframe⟩, decOut := s.decOut ++ [.data c] }) := by
  have hread : exec (.decPut c) s = .next (takeRunLiteral c cnt az s) := congrArg _ (readByte_lit c cnt az s hctl hc)
  rw [hread, takeRunLiteral_eq c cnt az s hcnt]

/-- A mode other than `CODE` awaits a literal (R24). -/
theorem Ctl.position_of_ne_code (c : Ctl) (h : c ≠ .code) : c.position = .literal := by
  cases c with
  | code => exact absurd rfl h
  | lit cnt az => rfl
  | mask m idx => rfl

/-- A zero in a literal position (R98). -/
theorem exec_decPut_zero_literal (s : State) (h : s.dec.ctl ≠ .code) :
    exec (.decPut 0x00#8) s = .next (raiseMalformed .truncated s) :=
  congrArg _ (readByte_zero_literal s (s.dec.ctl.position_of_ne_code h))

/-- Settles O16, row by row: the code bytes, the literals of a run and of a window, the zero in a literal position, `EOI`. -/
theorem decoderTransitionTable : Obligations.DecoderTransitionTable := by
  intro s c
  refine ⟨fun hctl hc => ?_, fun hctl hc => ?_, fun i hctl hlo hhi hi hstop hpassed => ?_, fun hctl hlo hhi => ?_,
    fun hctl hc => ?_, fun j az hctl hj hc => ?_, fun hctl hc => ?_, fun hctl hc => ?_,
    fun m i i' hctl hc hlt hi' hstop hpassed => ?_, fun m i hctl hc hi hpassed => ?_, fun hctl hc => ?_,
    (eoiRaisesNoTerminatorInFrame s).1, fun _ => (eoiRaisesNoTerminatorInFrame s).2⟩
  · exact congrArg _ (hc ▸ readByte_term s hctl)
  · subst hc
    exact exec_decPut_mask_code s 0x7F#8 7 hctl (by decide) (by decide) (le_refl 7) (by decide) (by decide)
  · rw [exec_decPut_mask_code s c i hctl hlo (by omega) hi.le hpassed fun _ => hstop, if_neg (Nat.ne_of_lt hi)]
  · rw [exec_decPut_code s c hctl, decodeCode_of_run_range c hlo hhi, exec_run_code s _ hctl, runField_toNat c hlo]
    rfl
  · exact congrArg _ (hc ▸ readByte_ff s hctl)
  · rw [exec_decPut_lit s c j az hctl hc (by omega), if_neg (by omega)]
  · rw [exec_decPut_lit s c 1 true hctl hc (le_refl 1)]
    rfl
  · rw [exec_decPut_lit s c 1 false hctl hc (le_refl 1)]
    rfl
  · rw [exec_decPut_mask_literal s c m i i' hctl hc hlt hi'.le hpassed fun _ => hstop, if_neg (Nat.ne_of_lt hi')]
  · exact exec_decPut_mask_literal s c m i 7 hctl hc hi (le_refl 7) hpassed fun h => absurd h (Nat.lt_irrefl 7)
  · rw [hc, exec_decPut_zero_literal s hctl]
    rfl

/-- What a byte in mode `CODE` makes the decoder emit (R102). -/
theorem readByte_code_output (c : Byte) (s : State) (h : s.dec.ctl = .code) :
    ∃ out, (readByte c s).decOut = s.decOut ++ out ∧ out.length ≤ 7 ∧
      (out = [.frameEnd .ok] ∨ ∃ k, out = List.replicate k (.data 0x00#8)) ∧ (0x80 ≤ c.toNat → out = []) := by
  by_cases hzero : c = 0x00#8
  · refine ⟨[.frameEnd .ok], ?_, by decide, .inl rfl, fun hc => ?_⟩
    · rw [hzero, readByte_term s h]
      rfl
    · rw [hzero] at hc
      simp at hc
  · rcases codeByte_cases c hzero with ⟨m, hm, rfl⟩ | ⟨n, hn, rfl⟩ | rfl
    · obtain ⟨i, -, hi, -, -, hdrain⟩ := exists_drain_eq m 0 (s.setDec { s.dec with inframe := true }) (Nat.zero_le 7)
      refine ⟨List.replicate i (.data 0x00#8), ?_, by rwa [List.length_replicate], .inr ⟨i, rfl⟩, fun hc => ?_⟩
      · rw [readByte_maskByte m s h hm, startMask, hdrain]
        rfl
      · have hlt : m.toNat < 128 := m.isLt
        rw [maskByte, BitVec.toNat_setWidth] at hc
        omega
    · refine ⟨[], ?_, Nat.zero_le 7, .inr ⟨0, rfl⟩, fun _ => rfl⟩
      rw [readByte_runByte n s h hn, List.append_nil]
      rfl
    · refine ⟨[], ?_, Nat.zero_le 7, .inr ⟨0, rfl⟩, fun _ => rfl⟩
      rw [readByte_ff s h, List.append_nil]
      rfl

/-- What a byte in mode `LIT` makes the decoder emit (R102). -/
theorem readByte_lit_output (c : Byte) (cnt : Nat) (az : Bool) (s : State) (h : s.dec.ctl = .lit cnt az) (hcnt : 1 ≤ cnt) :
    ∃ out, (readByte c s).decOut = s.decOut ++ out ∧
      (out = [.frameEnd (.malformedFrame .truncated)] ∨ out = [.data c] ∨ out = [.data c, .data 0x00#8]) := by
  by_cases hzero : c = 0x00#8
  · refine ⟨_, ?_, .inl rfl⟩
    rw [hzero, readByte_zero_literal s (by rw [h]; rfl)]
    rfl
  · rw [readByte_lit c cnt az s h hzero, takeRunLiteral_eq c cnt az s hcnt]
    split
    · cases az with
      | false => exact ⟨_, rfl, .inr (.inl rfl)⟩
      | true => exact ⟨_, rfl, .inr (.inr rfl)⟩
    · exact ⟨_, rfl, .inr (.inl rfl)⟩

/-- What a byte in mode `MASK` makes the decoder emit (R102). -/
theorem readByte_mask_output (c : Byte) (m : Bits7) (idx : Nat) (s : State) (h : s.dec.ctl = .mask m idx) (hidx : idx < 7) :
    ∃ out, (readByte c s).decOut = s.decOut ++ out ∧
      (out = [.frameEnd (.malformedFrame .truncated)] ∨ ∃ k ≤ 6, out = .data c :: List.replicate k (.data 0x00#8)) := by
  by_cases hzero : c = 0x00#8
  · refine ⟨_, ?_, .inl rfl⟩
    rw [hzero, readByte_zero_literal s (by rw [h]; rfl)]
    rfl
  · obtain ⟨i, -, hi, -, -, hdrain⟩ := exists_drain_eq m (idx + 1) (s.emitEvents [.data c]) hidx
    refine ⟨_, ?_, .inr ⟨i - (idx + 1), by omega, rfl⟩⟩
    rw [readByte_mask c m idx s h hzero, takeMaskLiteral, hdrain, State.emitEvents_decOut, List.append_assoc]
    rfl

/-- Settles O38, mode by mode. -/
theorem decoderOutputPerEvent : Obligations.DecoderOutputPerEvent := by
  intro s hinv
  refine ⟨fun c t hexec => ?_, fun t hexec => ?_⟩
  · obtain rfl : readByte c s = t := Host.Outcome.next.inj hexec
    cases hctl : s.dec.ctl with
    | code =>
      obtain ⟨out, hout, hlen, hkind, hrun⟩ := readByte_code_output c s hctl
      exact ⟨out, hout, hlen, fun _ => hkind, fun _ => hrun, nofun, nofun⟩
    | lit cnt az =>
      obtain ⟨hcnt, -⟩ := (Ctl.inv_lit_iff cnt az).mp (hinv.of_ctl hctl nofun).1
      obtain ⟨out, hout, hkind⟩ := readByte_lit_output c cnt az s hctl hcnt
      have hlen : out.length ≤ 7 := by rcases hkind with rfl | rfl | rfl <;> simp
      exact ⟨out, hout, hlen, nofun, nofun, fun _ _ _ => hkind, nofun⟩
    | mask m idx =>
      obtain ⟨hidx, -⟩ := (Ctl.inv_mask_iff m idx).mp (hinv.of_ctl hctl nofun).1
      obtain ⟨out, hout, hkind⟩ := readByte_mask_output c m idx s hctl hidx
      have hlen : out.length ≤ 7 := by
        rcases hkind with rfl | ⟨k, hk, rfl⟩
        · simp
        · rw [List.length_cons, List.length_replicate]
          omega
      exact ⟨out, hout, hlen, nofun, nofun, nofun, fun _ _ _ => hkind⟩
  · rw [exec_decEoi] at hexec
    cases hexec
    split
    · exact .inr rfl
    · exact .inl rfl

end Sys2Proof.Machine
end
